-- ==== Sys2Proof/Word.lean ====
section
/-! DEFINITION. The word types of DDF-CORE and the one shape every stored sequence of the spec has: a finite
sequence of cells (WS, BUF, a packet, a payload), held sparsely. -/

namespace Sys2Proof

/-- One byte: a cell of BUF, of a packet or of a payload (10 R28, 30 R70). -/
abbrev Byte := BitVec 8

/-- A 32-bit timestamp half (10 R31). -/
abbrev Half := BitVec 32

/-- A 64-bit quadword (30 R71), and a word of WS: a W-bit word is held zero-extended to 64 bits (10 R26). -/
abbrev Word := BitVec 64

/-- A finite sequence of `len` cells of `w` bits at addresses `0 .. len - 1` (00 R14). `cells` lists the
cells that differ from zero, by rising address; the canonical form is `Memory.wf`. -/
structure Memory (w : Nat) where
  len : Nat
  cells : List (Nat × BitVec w)
  deriving DecidableEq, Repr

/-- A byte sequence: BUF, a packet, a payload. Its cells are `Host.Cell`s. -/
abbrev Bytes := Memory 8

/-- A word sequence: WS. -/
abbrev Words := Memory 64

end Sys2Proof
end

