-- ==== Sys2Proof/Machine/Memory.lean ====
section
/-! DEFINITION. Operations on a finite sequence of cells (00 R14): reading, writing, cutting and joining. What an
address that is not listed reads as is decided once, in `cellsGet`. The reads and writes of the MACHINE, which
check addresses, are in Machine/Ops.lean. -/

namespace Sys2Proof

/-- The value at address `k` of a cell list. An address that is not listed reads as zero (assumption 2). -/
def cellsGet {w : Nat} : List (Nat × BitVec w) → Nat → BitVec w
  | [], _ => 0
  | (a, v) :: rest, k => if a = k then v else cellsGet rest k

/-- Addresses strictly rise from `lo` and stay below `hi`, and no listed value is zero. -/
def cellsWf {w : Nat} (hi : Nat) : Nat → List (Nat × BitVec w) → Bool
  | _, [] => true
  | lo, (a, v) :: rest => decide (lo ≤ a) && decide (a < hi) && decide (v ≠ 0) && cellsWf hi (a + 1) rest

/-- Puts a cell in front, unless its value is what an unlisted address reads as. -/
def cellsCons {w : Nat} (k : Nat) (v : BitVec w) (l : List (Nat × BitVec w)) : List (Nat × BitVec w) :=
  if v = 0 then l else (k, v) :: l

/-- Replaces the value at address `k`, keeping the order. -/
def cellsSet {w : Nat} : List (Nat × BitVec w) → Nat → BitVec w → List (Nat × BitVec w)
  | [], k, v => cellsCons k v []
  | (a, x) :: rest, k, v =>
    if k < a then cellsCons k v ((a, x) :: rest)
    else if k = a then cellsCons k v rest
    else (a, x) :: cellsSet rest k v

/-- The cells below address `n`. -/
def cellsBelow {w : Nat} (n : Nat) : List (Nat × BitVec w) → List (Nat × BitVec w)
  | [] => []
  | (a, v) :: rest => if a < n then (a, v) :: cellsBelow n rest else cellsBelow n rest

/-- The cells at and above address `n`. -/
def cellsFrom {w : Nat} (n : Nat) : List (Nat × BitVec w) → List (Nat × BitVec w)
  | [] => []
  | (a, v) :: rest => if n ≤ a then (a, v) :: cellsFrom n rest else cellsFrom n rest

/-- Every address `n` higher. -/
def cellsUp {w : Nat} (n : Nat) : List (Nat × BitVec w) → List (Nat × BitVec w)
  | [] => []
  | (a, v) :: rest => (a + n, v) :: cellsUp n rest

/-- Every address `n` lower. -/
def cellsDown {w : Nat} (n : Nat) : List (Nat × BitVec w) → List (Nat × BitVec w)
  | [] => []
  | (a, v) :: rest => (a - n, v) :: cellsDown n rest

/-- The cells of a list of values that starts at address `k`. -/
def cellsOfList {w : Nat} : Nat → List (BitVec w) → List (Nat × BitVec w)
  | _, [] => []
  | k, v :: rest => cellsCons k v (cellsOfList (k + 1) rest)

/-- The canonical form: strictly rising addresses below `len`, no listed zero. -/
def Memory.wf {w : Nat} (m : Memory w) : Bool := cellsWf m.len 0 m.cells

/-- The empty sequence; also a memory the host has not attached (10 R21). -/
def Memory.empty {w : Nat} : Memory w := ⟨0, []⟩

/-- The cell at address `k`. -/
def Memory.get {w : Nat} (m : Memory w) (k : Nat) : BitVec w := cellsGet m.cells k

/-- The sequence with `v` at address `k`. -/
def Memory.set {w : Nat} (m : Memory w) (k : Nat) (v : BitVec w) : Memory w := ⟨m.len, cellsSet m.cells k v⟩

/-- The `n` cells at addresses `a .. a + n - 1`, in that order (00 R14, MemRead). -/
def Memory.slice {w : Nat} (m : Memory w) (a n : Nat) : Memory w :=
  ⟨n, cellsDown a (cellsFrom a (cellsBelow (a + n) m.cells))⟩

/-- `s ++ t` (00 R14). -/
def Memory.append {w : Nat} (s t : Memory w) : Memory w := ⟨s.len + t.len, s.cells ++ cellsUp s.len t.cells⟩

/-- The sequence with the cells of `s` from address `a` on (00 R14, MemWrite). -/
def Memory.overwrite {w : Nat} (m : Memory w) (a : Nat) (s : Memory w) : Memory w :=
  ⟨m.len, cellsBelow a m.cells ++ (cellsUp a s.cells ++ cellsFrom (a + s.len) m.cells)⟩

/-- The sequence of the values of a list. -/
def Memory.ofList {w : Nat} (l : List (BitVec w)) : Memory w := ⟨l.length, cellsOfList 0 l⟩

/-- The values of the first `n` addresses, as a list. -/
def Memory.prefixList {w : Nat} (m : Memory w) (n : Nat) : List (BitVec w) := (List.range n).map m.get

/-- Every cell is below `2^n`: the words of a WS are W-bit words (10 R26). -/
def Memory.narrow {w : Nat} (m : Memory w) (n : Nat) : Bool := m.cells.all (fun c => decide (c.2.toNat < 2 ^ n))

end Sys2Proof
end

