-- ==== Sys2Proof/Syntax.lean ====
section
/-! DEFINITION. The nine commands with their decoded operands (00 R3, R17; 30 R74 to R77). -/

namespace Sys2Proof

/-- The timestamp variant, VAR (42 R123). -/
inductive Variant where
  | plain
  | ext
  deriving DecidableEq, Repr

/-- One command: one constructor per row of the opcode map (30 R77). Operands are the descriptor fields, each in
its encoded width; OV.WRITE also carries the packet's payload (30 R76). -/
inductive Instr where
  /-- BF.GET b, n, index (41 R102). -/
  | bfGet (b : BitVec 7) (n : BitVec 32) (index : Word)
  /-- BF.SET b, n, index, value (41 R104). -/
  | bfSet (b : BitVec 7) (n : BitVec 32) (index : Word) (value : Word)
  /-- TS.COMPOSE low, high (42 R120). -/
  | tsCompose (low high : Half)
  /-- TS.DECOMPOSE ts (42 R121). -/
  | tsDecompose (ts : Word)
  /-- TS.GET variant, low, high (42 R125). -/
  | tsGet (variant : Variant) (low high : Half)
  /-- TS.SET variant, low, high, ts (42 R126). -/
  | tsSet (variant : Variant) (low high : Half) (ts : Word)
  /-- OV.SIZE header_size, count, child_size (43 R142). -/
  | ovSize (headerSize count childSize : Word)
  /-- OV.WRITE header_size, count, child_size and the payload (43 R150). -/
  | ovWrite (headerSize count childSize : Word) (payload : Bytes)
  /-- OV.READ header_size, child_size (43 R156). -/
  | ovRead (headerSize childSize : Word)
  deriving DecidableEq, Repr

/-- The payload of a command's packet: empty but for OV.WRITE (30 R70, R76). -/
def Instr.payload : Instr → Bytes
  | .bfGet _ _ _ => ⟨0, []⟩
  | .bfSet _ _ _ _ => ⟨0, []⟩
  | .tsCompose _ _ => ⟨0, []⟩
  | .tsDecompose _ => ⟨0, []⟩
  | .tsGet _ _ _ => ⟨0, []⟩
  | .tsSet _ _ _ _ => ⟨0, []⟩
  | .ovSize _ _ _ => ⟨0, []⟩
  | .ovWrite _ _ _ p => p
  | .ovRead _ _ => ⟨0, []⟩

end Sys2Proof
end

