-- ==== Sys2Proof/Decode.lean ====
section
/-! DEFINITION. Command packets (30 R70 to R82): decoding, total and rejecting by name, and the encoder written from
the same tables. Value-level legality (30 R79), which depends on the instance and the memories, is judged when the
command executes (Machine/Flags.lean); every rejection here and there has the one outcome IllegalCommand. -/

namespace Sys2Proof

/-- The nine opcodes (30 R77). -/
inductive Opcode where
  | bfGet
  | bfSet
  | tsCompose
  | tsDecompose
  | tsGet
  | tsSet
  | ovSize
  | ovWrite
  | ovRead
  deriving DecidableEq, Repr

/-- Why a packet is no command. The block answers each but the first with IllegalCommand; a packet of fewer than
32 bytes is never presented (30 R70). -/
inductive DecodeError where
  | shortPacket
  | unknownOpcode (op : Byte)
  | reservedBits (op : Opcode)
  | unexpectedPayload (op : Opcode)
  deriving DecidableEq, Repr

/-- The OP field of a row of the opcode map (30 R77). -/
def Opcode.byte : Opcode → Byte
  | .bfGet => 0x01
  | .bfSet => 0x02
  | .tsCompose => 0x10
  | .tsDecompose => 0x11
  | .tsGet => 0x12
  | .tsSet => 0x13
  | .ovSize => 0x20
  | .ovWrite => 0x21
  | .ovRead => 0x22

/-- Step (1) of 30 R80: the row an OP byte names, if any. -/
def opcodeOf (op : Byte) : Option Opcode :=
  if op = 0x01 then some .bfGet
  else if op = 0x02 then some .bfSet
  else if op = 0x10 then some .tsCompose
  else if op = 0x11 then some .tsDecompose
  else if op = 0x12 then some .tsGet
  else if op = 0x13 then some .tsSet
  else if op = 0x20 then some .ovSize
  else if op = 0x21 then some .ovWrite
  else if op = 0x22 then some .ovRead
  else none

/-- The row's mask (30 R77, quadwords Q3 Q2 Q1 Q0). -/
def Opcode.mask : Opcode → BitVec 256
  | .bfGet => 0xFFFFFFFFFFFFFFFFFFFFFFFFFFFFFFFF000000000000000000000000FFFF80FF
  | .bfSet => 0xFFFFFFFFFFFFFFFF0000000000000000000000000000000000000000FFFF80FF
  | .tsCompose => 0xFFFFFFFFFFFFFFFFFFFFFFFFFFFFFFFF0000000000000000FFFFFFFFFFFFFFFF
  | .tsDecompose => 0xFFFFFFFFFFFFFFFF0000000000000000FFFFFFFFFFFFFFFFFFFFFFFFFFFFFFFF
  | .tsGet => 0xFFFFFFFFFFFFFFFFFFFFFFFFFFFFFFFF0000000000000000FFFFFFFFFFFF7FFF
  | .tsSet => 0xFFFFFFFFFFFFFFFF00000000000000000000000000000000FFFFFFFFFFFF7FFF
  | .ovSize => 0x000000000000000000000000000000000000000000000000FFFFFFFFFFFFFFFF
  | .ovWrite => 0x000000000000000000000000000000000000000000000000FFFFFFFFFFFFFFFF
  | .ovRead => 0x0000000000000000FFFFFFFFFFFFFFFF0000000000000000FFFFFFFFFFFFFFFF

/-- The row's match: the OP byte, every must-be-zero bit clear (30 R77). -/
def Opcode.pattern (op : Opcode) : BitVec 256 := op.byte.setWidth 256

/-- The number whose little-endian bytes are the list. -/
def bytesToNat : List Byte → Nat
  | [] => 0
  | b :: rest => b.toNat + 256 * bytesToNat rest

/-- The `n` low bytes of a number, least significant first. -/
def natToBytes : Nat → Nat → List Byte
  | 0, _ => []
  | n + 1, v => BitVec.ofNat 8 v :: natToBytes n (v / 256)

/-- The descriptor D: packet byte k is D[8k+7 : 8k] (30 R71). -/
def descriptorOf (pkt : Bytes) : BitVec 256 := BitVec.ofNat 256 (bytesToNat (pkt.prefixList 32))

/-- The payload: packet bytes 32 .. PKT - 1 (30 R70). -/
def payloadOf (pkt : Bytes) : Bytes := pkt.slice 32 (pkt.len - 32)

/-- OP = D[7:0] (30 R72). -/
def fieldOP (d : BitVec 256) : Byte := d.extractLsb' 0 8

/-- BW = D[14:8] (30 R72). -/
def fieldBW (d : BitVec 256) : BitVec 7 := d.extractLsb' 8 7

/-- VAR = D[15] (30 R72): 0 = plain-64, 1 = extended-64. -/
def fieldVAR (d : BitVec 256) : Variant := if d.getLsbD 15 then .ext else .plain

/-- NS = D[63:32] (30 R72). -/
def fieldNS (d : BitVec 256) : BitVec 32 := d.extractLsb' 32 32

/-- Q1 = D[127:64] (30 R71). -/
def fieldQ1 (d : BitVec 256) : Word := d.extractLsb' 64 64

/-- Q2 = D[191:128] (30 R71). -/
def fieldQ2 (d : BitVec 256) : Word := d.extractLsb' 128 64

/-- Q3 = D[255:192] (30 R71). -/
def fieldQ3 (d : BitVec 256) : Word := d.extractLsb' 192 64

/-- low = Q1[31:0] (30 R75). -/
def fieldLow (d : BitVec 256) : Half := d.extractLsb' 64 32

/-- high = Q1[63:32] (30 R75). -/
def fieldHigh (d : BitVec 256) : Half := d.extractLsb' 96 32

/-- Step (4) of 30 R80: the row's command, its operands assembled by 30 R74 to R76. -/
def assemble (op : Opcode) (d : BitVec 256) (payload : Bytes) : Instr :=
  match op with
  | .bfGet => .bfGet (fieldBW d) (fieldNS d) (fieldQ1 d)
  | .bfSet => .bfSet (fieldBW d) (fieldNS d) (fieldQ1 d) (fieldQ2 d)
  | .tsCompose => .tsCompose (fieldLow d) (fieldHigh d)
  | .tsDecompose => .tsDecompose (fieldQ2 d)
  | .tsGet => .tsGet (fieldVAR d) (fieldLow d) (fieldHigh d)
  | .tsSet => .tsSet (fieldVAR d) (fieldLow d) (fieldHigh d) (fieldQ2 d)
  | .ovSize => .ovSize (fieldQ1 d) (fieldQ2 d) (fieldQ3 d)
  | .ovWrite => .ovWrite (fieldQ1 d) (fieldQ2 d) (fieldQ3 d) payload
  | .ovRead => .ovRead (fieldQ1 d) (fieldQ3 d)

/-- Decoding (30 R80): total; steps (1), (2) and the last row of 30 R79, then (4). -/
def decode (pkt : Bytes) : Except DecodeError Instr :=
  if pkt.len < 32 then .error .shortPacket
  else
    match opcodeOf (fieldOP (descriptorOf pkt)) with
    | none => .error (.unknownOpcode (fieldOP (descriptorOf pkt)))
    | some op =>
      if descriptorOf pkt &&& op.mask ≠ op.pattern then .error (.reservedBits op)
      else if op ≠ .ovWrite ∧ pkt.len ≠ 32 then .error (.unexpectedPayload op)
      else .ok (assemble op (descriptorOf pkt) (payloadOf pkt))

/-- VAR of a variant (42 R123). -/
def variantBit : Variant → BitVec 1
  | .plain => 0
  | .ext => 1

/-- The control quadword Q0 = NS RSV VAR BW OP, RSV = 0 (30 R72). -/
def controlQuad (op : Opcode) (bw : BitVec 7) (var : BitVec 1) (ns : BitVec 32) : Word :=
  ns ++ (0 : BitVec 16) ++ var ++ bw ++ op.byte

/-- D = Q3 Q2 Q1 Q0 (30 R71). -/
def quads (q3 q2 q1 q0 : Word) : BitVec 256 := q3 ++ q2 ++ q1 ++ q0

/-- The descriptor of a command, every unused field zero (30 R77, R83). -/
def descriptor : Instr → BitVec 256
  | .bfGet b n i => quads 0 0 i (controlQuad .bfGet b 0 n)
  | .bfSet b n i v => quads 0 v i (controlQuad .bfSet b 0 n)
  | .tsCompose lo hi => quads 0 0 (hi ++ lo) (controlQuad .tsCompose 0 0 0)
  | .tsDecompose ts => quads 0 ts 0 (controlQuad .tsDecompose 0 0 0)
  | .tsGet v lo hi => quads 0 0 (hi ++ lo) (controlQuad .tsGet 0 (variantBit v) 0)
  | .tsSet v lo hi ts => quads 0 ts (hi ++ lo) (controlQuad .tsSet 0 (variantBit v) 0)
  | .ovSize hs c cs => quads cs c hs (controlQuad .ovSize 0 0 0)
  | .ovWrite hs c cs _ => quads cs c hs (controlQuad .ovWrite 0 0 0)
  | .ovRead hs cs => quads cs 0 hs (controlQuad .ovRead 0 0 0)

/-- The 32 descriptor bytes, little-endian (30 R71). -/
def descriptorBytes (d : BitVec 256) : Bytes := Memory.ofList (natToBytes 32 d.toNat)

/-- The packet of a command: descriptor, then payload (30 R70, R82, R83). -/
def encode (i : Instr) : Bytes := (descriptorBytes (descriptor i)).append i.payload

/-- The row of the opcode map a command belongs to (30 R77). -/
def Instr.opcode : Instr → Opcode
  | .bfGet _ _ _ => .bfGet
  | .bfSet _ _ _ _ => .bfSet
  | .tsCompose _ _ => .tsCompose
  | .tsDecompose _ => .tsDecompose
  | .tsGet _ _ _ => .tsGet
  | .tsSet _ _ _ _ => .tsSet
  | .ovSize _ _ _ => .ovSize
  | .ovWrite _ _ _ _ => .ovWrite
  | .ovRead _ _ => .ovRead

/-- The number of payload bytes a descriptor calls for (30 R82). -/
def payloadLength (d : BitVec 256) : Nat :=
  if fieldOP d = Opcode.ovWrite.byte then
    (fieldQ1 d).toNat + (fieldQ2 d).toNat * (fieldQ3 d).toNat
  else 0

/-- The packet whose first `nbits` bits are `w`, bit 0 first, and whose further bytes, up to the length its
descriptor calls for, are zero. -/
def tablePacket (nbits w : Nat) : Bytes :=
  ⟨max (32 + payloadLength (BitVec.ofNat 256 (w % 2 ^ nbits))) (nbits / 8),
   cellsOfList 0 (natToBytes (max 32 (nbits / 8)) (w % 2 ^ nbits))⟩

/-- The command the decoder reads from an instruction whose bits are `w`, as spec/opcode_table.json numbers them. -/
def decodeTableWord (nbits w : Nat) : Option Instr :=
  match decode (tablePacket nbits w) with
  | .ok i => some i
  | .error _ => none

end Sys2Proof
end

