-- ==== Sys2Proof/Config.lean ====
section
/-! DEFINITION. The static parameters of an instance (00 R9), fixed when it is built (10 R25). They are plain data
and every claim may quantify over them. The spec leaves no value open that a command could read, so there is no
free value here. -/

namespace Sys2Proof

/-- W: "word width W in {32, 64} bits" (00 R9). -/
inductive WordSize where
  | w32
  | w64
  deriving DecidableEq, Repr

def WordSize.bits : WordSize → Nat
  | .w32 => 32
  | .w64 => 64

/-- LEN_BITS: the width of the length type (00 R9). -/
inductive LenBits where
  | b16
  | b32
  | b64
  deriving DecidableEq, Repr

def LenBits.bits : LenBits → Nat
  | .b16 => 16
  | .b32 => 32
  | .b64 => 64

/-- COUNT_ORDER and WORD_ORDER (00 R9). -/
inductive ByteOrder where
  | little
  | big
  deriving DecidableEq, Repr

/-- Where the sub-fields of the high half stand under extended-64 and which stored value of the flag means
"enabled": 42 R124 asks a model to keep its table as a configuration record (93 U10). -/
structure TsLayout where
  midPos : Nat
  extPos : Nat
  enPos : Nat
  enSet : Bool
  deriving DecidableEq, Repr

/-- The table of 42 R124: mid = high[15:0], ext = high[30:16], en = high[31], set means enabled. -/
def TsLayout.r124 : TsLayout := ⟨0, 16, 31, true⟩

/-- The three fields (16, 15 and 1 bits) lie inside the 32-bit half and do not overlap. -/
def TsLayout.wf (l : TsLayout) : Bool :=
  decide (l.midPos + 16 ≤ 32) && decide (l.extPos + 15 ≤ 32) && decide (l.enPos < 32) &&
  (decide (l.midPos + 16 ≤ l.extPos) || decide (l.extPos + 15 ≤ l.midPos)) &&
  (decide (l.midPos + 16 ≤ l.enPos) || decide (l.enPos < l.midPos)) &&
  (decide (l.extPos + 15 ≤ l.enPos) || decide (l.enPos < l.extPos))

/-- The static parameters of one instance (00 R9). `countBytesPred` is COUNT_BYTES - 1, so that exactly the
values 1 to 8 exist. -/
structure Config where
  wordSize : WordSize
  countBytesPred : Fin 8
  lenBits : LenBits
  countOrder : ByteOrder
  wordOrder : ByteOrder
  tsLayout : TsLayout
  deriving DecidableEq, Repr

/-- W. -/
def Config.W (c : Config) : Nat := c.wordSize.bits

/-- COUNT_BYTES. -/
def Config.countBytes (c : Config) : Nat := c.countBytesPred.val + 1

/-- An instance of word width `w` with the spec's default for every other parameter (00 R9, 42 R124). -/
def Config.default (w : WordSize) : Config := ⟨w, 7, .b64, .little, .little, TsLayout.r124⟩

end Sys2Proof
end

