-- ==== Sys2Proof/Machine/State.lean ====
section
/-! DEFINITION. The machine's state as plain data, the outcomes it can report, and the state after reset. -/

namespace Sys2Proof.Machine

/-- The document's four errors and the spec's fifth (60 R170). -/
inductive CmdError where
  | indexOutOfRange
  | valueOutOfRange
  | bufferTooShort
  | sizeOverflow
  | illegalCommand
  deriving DecidableEq, Repr

/-- The status of a command (60 R170); its number is `statusCode`. -/
inductive Status where
  | ok
  | error (e : CmdError)
  deriving DecidableEq, Repr

/-- A response (30 R73): status, result value R1, payload. -/
structure Response where
  status : Status
  r1 : Word
  payload : Bytes
  deriving DecidableEq, Repr

/-- A move of the host (60 R186, R192; 70 R200, R203). -/
inductive HostAction where
  /-- Presents a whole packet on the command port (30 R70); the block executes it. -/
  | issue (pkt : Bytes)
  /-- Takes the oldest response (60 R186). -/
  | takeResponse
  /-- Attaches a WS, in place of the one before (10 R21, 70 R203). -/
  | attachWs (ws : Words)
  /-- Detaches WS: M = 0 (10 R21). -/
  | detachWs
  /-- Reads the word at address `k` (60 R192). -/
  | readWord (k : Nat)
  /-- Writes the word at address `k` (60 R192). -/
  | writeWord (k : Nat) (v : Word)
  /-- Attaches a BUF, in place of the one before. -/
  | attachBuf (buf : Bytes)
  /-- Detaches BUF: L = 0. -/
  | detachBuf
  /-- Reads the byte at address `a`. -/
  | readByte (a : Nat)
  /-- Writes the byte at address `a`. -/
  | writeByte (a : Nat) (v : Byte)
  /-- Resets the idle block (70 R200, R201). -/
  | reset
  deriving DecidableEq, Repr

/-- What a move of the host gave it. -/
inductive Observation where
  | response (r : Response)
  | word (k : Nat) (v : Word)
  | byte (a : Nat) (v : Byte)
  deriving DecidableEq, Repr

/-- Why the machine stops with a fault: an address that does not exist (20 R50). -/
inductive Fault where
  /-- An access to a WS address at or above M. Raised by the WS accessors, on behalf of a host move only: no command
  makes such an access (20 R52). Safe: the machine stops. -/
  | wsAddress (k : Nat)
  /-- An access to a BUF address at or above L. Raised by the BUF accessors, on behalf of a host move only. Safe. -/
  | bufAddress (a : Nat)
  deriving DecidableEq, Repr

/-- Moves that have no meaning. -/
inductive Refusal where
  /-- An instruction that has no meaning yet. Raised by no arm of exec: every command has its meaning. Safe. -/
  | notModelled (mnemonic : String)
  /-- The host presents something that is not a packet: fewer than 32 bytes, or no byte sequence in canonical form.
  Raised by `issue`; 30 R70: never presented; 93 U16: refuse. Safe. -/
  | notAPacket
  /-- The host takes a response where none is pending. Raised by `takeResponse` (assumption 7). Safe. -/
  | noResponse
  /-- The host attaches something that is no launch memory (00 R10): too long, a word of more than W bits, or no
  sequence in canonical form. Raised by `attachWs` and `attachBuf`. Safe. -/
  | notALaunchMemory
  /-- The host writes a word of more than W bits (00 R14). Raised by `writeWord`. Safe. -/
  | wordTooWide
  deriving DecidableEq, Repr

/-- The state: the instance's parameters, the pair (WS, BUF) of 10 R21, and the step's inputs and outputs (10 R32). -/
structure State where
  /-- The static parameters (00 R9); nothing changes them. -/
  cfg : Config
  /-- The word stream WS; `ws.len` is M (10 R26). -/
  ws : Words
  /-- The overlay buffer BUF; `buf.len` is L (10 R28). -/
  buf : Bytes
  /-- Input: the host's moves still to come, the next one first (60 R186, 20 R53). -/
  inbox : List HostAction
  /-- Output: the responses emitted and not yet taken, oldest first (60 R186). -/
  responses : List Response
  /-- Output: what the host's moves gave it, oldest first. -/
  observed : List Observation
  deriving DecidableEq, Repr

/-- An instance with parameters `c` right after reset (10 R33, 70 R200): idle, and no memory attached (10 R21). -/
def State.resetOf (c : Config) : State := ⟨c, ⟨0, []⟩, ⟨0, []⟩, [], [], []⟩

/-- The machine right after reset. The spec gives W no default (00 R9); the model's instance has W = 32
(DESIGN CHOICE, assumption 1), every other parameter the spec's default. -/
def State.reset : State := State.resetOf (Config.default .w32)

end Sys2Proof.Machine
end

