-- ==== Sys2Proof/Machine/Operands.lean ====
section
/-! DEFINITION. What the commands compute from their operands: masks, positions of samples (41 R100), timestamp
fields (42 R124), the count field (00 R15) and sizes (43 R141). Arithmetic on lengths, positions and addresses is
exact, on naturals (00 R12). -/

namespace Sys2Proof.Machine

/-- `mask(n) = 2^n - 1` for `0 ≤ n ≤ 64`, computed exactly (00 R13, 70 R207). -/
def mask (n : Nat) : Word := BitVec.ofNat 64 (2 ^ n - 1)

/-- Where a sample lies (41 R100). -/
structure Position where
  wordIndex : Nat
  bitOffset : Nat
  firstBits : Nat
  remainderBits : Nat
  deriving DecidableEq, Repr

/-- The position of sample `index` of width `B` in a stream of `W`-bit words (41 R100). -/
def samplePosition (W B index : Nat) : Position :=
  ⟨B * index / W, B * index % W, min B (W - B * index % W), B - min B (W - B * index % W)⟩

/-- The bits of a sample that lie in its first word (41 R102, `lo`). -/
def lowPart (p : Position) (w0 : Word) : Word := (w0 >>> p.bitOffset) &&& mask p.firstBits

/-- The sample of a crossing position from its two words (41 R102). -/
def joinParts (B : Nat) (p : Position) (w0 w1 : Word) : Word :=
  (lowPart p w0 ||| ((w1 &&& mask p.remainderBits) <<< p.firstBits)) &&& mask B

/-- The first word with the low part of `value` put in (41 R104). The complement is on W bits. -/
def mergeFirst (W : Nat) (p : Position) (w0 value : Word) : Word :=
  (w0 &&& (mask W &&& ~~~(mask p.firstBits <<< p.bitOffset))) ||| ((value &&& mask p.firstBits) <<< p.bitOffset)

/-- The second word with the high part of `value` put in (41 R104). -/
def mergeSecond (W : Nat) (p : Position) (w1 value : Word) : Word :=
  (w1 &&& (mask W &&& ~~~(mask p.remainderBits))) ||| (value >>> p.firstBits)

/-- The record `{high, low}` (10 R31), also the timestamp `low | (high << 32)` (42 R120). -/
def joinHalves (low high : Half) : Word := low.setWidth 64 ||| (high.setWidth 64 <<< 32)

/-- `ts[31:0]` (42 R121). -/
def lowHalf (ts : Word) : Half := ts.extractLsb' 0 32

/-- `ts[63:32]` (42 R121). -/
def highHalf (ts : Word) : Half := ts.extractLsb' 32 32

/-- The sub-fields of the high half under extended-64 (42 R124). -/
structure ExtFields where
  mid : BitVec 16
  ext : BitVec 15
  en : Bool
  deriving DecidableEq, Repr

/-- Reads the sub-fields of `high` where the layout record places them (42 R124, 93 U10). -/
def extFieldsOf (l : TsLayout) (high : Half) : ExtFields :=
  ⟨high.extractLsb' l.midPos 16, high.extractLsb' l.extPos 15, high.getLsbD l.enPos == l.enSet⟩

/-- The high half that holds the sub-fields; `{en, ext, mid}` under the layout of 42 R124. -/
def packHigh (l : TsLayout) (f : ExtFields) : Half :=
  (f.mid.setWidth 32 <<< l.midPos) ||| (f.ext.setWidth 32 <<< l.extPos) |||
    ((BitVec.ofBool (f.en == l.enSet)).setWidth 32 <<< l.enPos)

/-- TS.GET's timestamp under extended-64 (42 R125). -/
def extTimestamp (l : TsLayout) (low high : Half) : Word :=
  let f := extFieldsOf l high
  let base : Word := low.setWidth 64 ||| (f.mid.setWidth 64 <<< 32)
  if f.en then base ||| (f.ext.setWidth 64 <<< 48) else base

/-- TS.SET's new high half under extended-64 (42 R126): `en` kept, `ext` kept unless enabled. -/
def extHigh (l : TsLayout) (high : Half) (ts : Word) : Half :=
  let f := extFieldsOf l high
  packHigh l ⟨ts.extractLsb' 32 16, if f.en then ts.extractLsb' 48 15 else f.ext, f.en⟩

/-- The byte list of a number in the given order, `n` bytes long. -/
def orderedBytes (o : ByteOrder) (n v : Nat) : List Byte :=
  match o with
  | .little => natToBytes n v
  | .big => (natToBytes n v).reverse

/-- The number a byte list stands for in the given order. -/
def orderedNat (o : ByteOrder) (l : List Byte) : Nat :=
  match o with
  | .little => bytesToNat l
  | .big => bytesToNat l.reverse

/-- `enc_count(c)` (00 R15). -/
def encCount (cfg : Config) (c : Nat) : Bytes := Memory.ofList (orderedBytes cfg.countOrder cfg.countBytes c)

/-- `dec_count(s)` (00 R15). -/
def decCount (cfg : Config) (s : Bytes) : Nat := orderedNat cfg.countOrder (s.prefixList cfg.countBytes)

/-- `size(hs, c, cs)` (43 R141). -/
def recordSize (cfg : Config) (hs c cs : Nat) : Nat := hs + cfg.countBytes + c * cs

/-- `fits(x)` (43 R141). -/
def fits (cfg : Config) (x : Nat) : Bool := decide (x < 2 ^ cfg.lenBits.bits)

/-- `checked_size(hs, c, cs)` (43 R141): the product is checked before the sum. -/
def checkedSize (cfg : Config) (hs c cs : Nat) : Except CmdError Nat :=
  if !fits cfg (c * cs) then .error .sizeOverflow
  else if !fits cfg (recordSize cfg hs c cs) then .error .sizeOverflow
  else .ok (recordSize cfg hs c cs)

end Sys2Proof.Machine
end

