-- ==== Sys2Proof/Machine/Flags.lean ====
section
/-! DEFINITION. The block has no flags (10 R24). What a command reports instead is its status: the status numbers
(60 R170) and the checks that decide it (30 R79, 60 R178). -/

namespace Sys2Proof.Machine

/-- `code` (60 R170). -/
def errorCode : CmdError → Nat
  | .indexOutOfRange => 1
  | .valueOutOfRange => 2
  | .bufferTooShort => 3
  | .sizeOverflow => 4
  | .illegalCommand => 5

/-- The status number in R0[7:0] (60 R170). -/
def statusCode : Status → Nat
  | .ok => 0
  | .error e => errorCode e

/-- A field descriptor (B, N) is legal for the attached stream: `1 ≤ B ≤ W` and `N * B ≤ W * M` (30 R79, 10 R27). -/
def legalField (b : BitVec 7) (n : BitVec 32) (s : State) : Bool :=
  decide (1 ≤ b.toNat) && decide (b.toNat ≤ s.cfg.W) && decide (n.toNat * b.toNat ≤ s.cfg.W * s.ws.len)

/-- `child_size` is at least 1 (30 R79). -/
def legalChildSize (childSize : Word) : Bool := decide (1 ≤ childSize.toNat)

/-- An OV.WRITE packet has `PKT - 32 = header_size + count * child_size` (30 R79). -/
def legalPayload (headerSize count childSize : Word) (payload : Bytes) : Bool :=
  decide (payload.len = headerSize.toNat + count.toNat * childSize.toNat)

/-- `index < N` (41 R101). -/
def indexInRange (n : BitVec 32) (index : Word) : Bool := decide (index.toNat < n.toNat)

/-- `value < 2^B`, compared exactly (41 R104, 70 R207). -/
def valueInRange (b : BitVec 7) (value : Word) : Bool := decide (value.toNat < 2 ^ b.toNat)

/-- `count < 2^(8*COUNT_BYTES)` (43 R150). -/
def countFits (cfg : Config) (count : Word) : Bool := decide (count.toNat < 2 ^ (8 * cfg.countBytes))

end Sys2Proof.Machine
end

