-- ==== Sys2Proof/Machine/Ops.lean ====
section
/-! DEFINITION. The named operations over the state: the only reads and writes of WS and BUF, each checking its
address, and the two ways a command ends (00 R14, R16). A read or a checked write takes what comes after it as an
argument, so that an access to an address that does not exist (20 R50) ends in a fault at once. -/

namespace Sys2Proof.Machine

/-- What a step answers. -/
abbrev Result := Host.Outcome State Fault Refusal

/-- The state with another WS. -/
def State.setWs (s : State) (ws : Words) : State := { s with ws := ws }

/-- The state with another BUF. -/
def State.setBuf (s : State) (buf : Bytes) : State := { s with buf := buf }

/-- The state with another rest of the host's moves. -/
def State.setInbox (s : State) (inbox : List HostAction) : State := { s with inbox := inbox }

/-- The state with other pending responses. -/
def State.setResponses (s : State) (rs : List Response) : State := { s with responses := rs }

/-- The state in which the host has been given one thing more. -/
def State.observe (s : State) (o : Observation) : State := { s with observed := s.observed ++ [o] }

/-- `respond(st, r, p)` (00 R16): exactly one response, after those before it (60 R186). -/
def State.respond (s : State) (st : Status) (r1 : Word) (payload : Bytes) : State :=
  { s with responses := s.responses ++ [⟨st, r1, payload⟩] }

/-- `raise E` (00 R16; 60 R177, R179): what stands in for taking an exception. R1 = 0, no payload, nothing else. -/
def State.raise (s : State) (e : CmdError) : State := s.respond (.error e) 0 Memory.empty

/-- The command ends with `respond(OK, r)` and an empty payload (00 R16). -/
def finish (s : State) (r1 : Word) : Result := .next (s.respond .ok r1 Memory.empty)

/-- The command ends with `respond(OK, r, p)` (00 R16). -/
def finishWith (s : State) (r1 : Word) (payload : Bytes) : Result := .next (s.respond .ok r1 payload)

/-- The command ends with `raise E` (00 R16). -/
def fail (s : State) (e : CmdError) : Result := .next (s.raise e)

/-- `WS[k]` (00 R14). -/
def readWs (s : State) (k : Nat) (f : Word → Result) : Result :=
  if k < s.ws.len then f (s.ws.get k) else .fault (.wsAddress k)

/-- `WS[k] <- v` (00 R14). -/
def writeWs (s : State) (k : Nat) (v : Word) (f : State → Result) : Result :=
  if k < s.ws.len then f (s.setWs (s.ws.set k v)) else .fault (.wsAddress k)

/-- `MemRead(a, n)` (00 R14). -/
def memRead (s : State) (a n : Nat) (f : Bytes → Result) : Result :=
  if a + n ≤ s.buf.len then f (s.buf.slice a n) else .fault (.bufAddress (a + n - 1))

/-- `MemWrite(a, len(p), p)` (00 R14). -/
def memWrite (s : State) (a : Nat) (p : Bytes) (f : State → Result) : Result :=
  if a + p.len ≤ s.buf.len then f (s.setBuf (s.buf.overwrite a p)) else .fault (.bufAddress (a + p.len - 1))

/-- The response packet (30 R73): R0 and R1 little-endian, then the payload. -/
def responsePacket (r : Response) : Bytes :=
  (Memory.ofList (natToBytes 8 (statusCode r.status) ++ natToBytes 8 r.r1.toNat)).append r.payload

/-- Bit `u` of the stream: `S[W*k + j] = WS[k][j]` (10 R27). -/
def State.streamBit (s : State) (u : Nat) : Bool := (s.ws.get (u / s.cfg.W)).getLsbD (u % s.cfg.W)

/-- Byte `b` of WS as a host sees its storage under WORD_ORDER (20 R42). -/
def State.storageByte (s : State) (b : Nat) : Byte :=
  let bytes := s.cfg.W / 8
  match s.cfg.wordOrder with
  | .little => (s.ws.get (b / bytes)).extractLsb' (8 * (b % bytes)) 8
  | .big => (s.ws.get (b / bytes)).extractLsb' (8 * (bytes - 1 - b % bytes)) 8

end Sys2Proof.Machine
end

