-- ==== Sys2Proof/Machine/BitField.lean ====
section
/-! DEFINITION. The bit_field_codec commands (41_bitfield.md). -/

namespace Sys2Proof.Machine

/-- The checks both commands begin with (41 R101), then the rest of the command at the sample's position. -/
def withSample (b : BitVec 7) (n : BitVec 32) (index : Word) (s : State) (f : Position → Result) : Result :=
  if !legalField b n s then fail s .illegalCommand
  else if !indexInRange n index then fail s .indexOutOfRange
  else f (samplePosition s.cfg.W b.toNat index.toNat)

/-- BF.GET (41 R102). The second word is read only when the sample crosses. -/
def execBfGet (b : BitVec 7) (n : BitVec 32) (index : Word) (s : State) : Result :=
  withSample b n index s fun p =>
    readWs s p.wordIndex fun w0 =>
      if 0 < p.remainderBits then
        readWs s (p.wordIndex + 1) fun w1 => finish s (joinParts b.toNat p w0 w1)
      else finish s (lowPart p w0 &&& mask b.toNat)

/-- BF.SET (41 R104): the first word is written, then, when the sample crosses, the second (92 D32). -/
def execBfSet (b : BitVec 7) (n : BitVec 32) (index value : Word) (s : State) : Result :=
  withSample b n index s fun p =>
    if !valueInRange b value then fail s .valueOutOfRange
    else
      readWs s p.wordIndex fun w0 =>
        writeWs s p.wordIndex (mergeFirst s.cfg.W p w0 value) fun s1 =>
          if 0 < p.remainderBits then
            readWs s1 (p.wordIndex + 1) fun w1 =>
              writeWs s1 (p.wordIndex + 1) (mergeSecond s.cfg.W p w1 value) fun s2 => finish s2 0
          else finish s1 0

end Sys2Proof.Machine
end

