-- ==== Sys2Proof/Machine/Overlay.lean ====
section
/-! DEFINITION. The overlay_serializer commands (43_overlay.md). -/

namespace Sys2Proof.Machine

/-- Goes on with the record's size, or ends with the overflow (43 R141). -/
def withSize (s : State) (hs c cs : Nat) (f : Nat → Result) : Result :=
  match checkedSize s.cfg hs c cs with
  | .error e => fail s e
  | .ok total => f total

/-- OV.SIZE (43 R142). -/
def execOvSize (headerSize count childSize : Word) (s : State) : Result :=
  withSize s headerSize.toNat count.toNat childSize.toNat fun total => finish s (BitVec.ofNat 64 total)

/-- OV.WRITE (43 R150). The children are one contiguous run, as 43 R150 says of its three groups of writes. -/
def execOvWrite (headerSize count childSize : Word) (payload : Bytes) (s : State) : Result :=
  let hs := headerSize.toNat
  let childBytes := count.toNat * childSize.toNat
  if !legalChildSize childSize || !legalPayload headerSize count childSize payload then fail s .illegalCommand
  else if !countFits s.cfg count then fail s .valueOutOfRange
  else
    withSize s hs count.toNat childSize.toNat fun total =>
      if s.buf.len < total then fail s .bufferTooShort
      else
        memWrite s 0 (payload.slice 0 hs) fun s1 =>
          memWrite s1 hs (encCount s.cfg count.toNat) fun s2 =>
            memWrite s2 (hs + s.cfg.countBytes) (payload.slice hs childBytes) fun s3 => finish s3 0

/-- OV.READ (43 R156): stage 1 checks the fixed prefix before any read, stage 2 the stored count. -/
def execOvRead (headerSize childSize : Word) (s : State) : Result :=
  let hs := headerSize.toNat
  let pre := hs + s.cfg.countBytes
  if !legalChildSize childSize then fail s .illegalCommand
  else if !fits s.cfg pre then fail s .sizeOverflow
  else if s.buf.len < pre then fail s .bufferTooShort
  else
    memRead s 0 hs fun header =>
      memRead s hs s.cfg.countBytes fun field =>
        let count := decCount s.cfg field
        withSize s hs count childSize.toNat fun total =>
          if s.buf.len < total then fail s .bufferTooShort
          else
            memRead s pre (count * childSize.toNat) fun children =>
              finishWith s (BitVec.ofNat 64 count) (header.append children)

end Sys2Proof.Machine
end

