-- ==== Sys2Proof/Machine/Timestamp.lean ====
section
/-! DEFINITION. The timestamp_codec commands (42_timestamp.md): pure, no memory, no error of their own (42 R129). -/

namespace Sys2Proof.Machine

/-- TS.COMPOSE (42 R120). -/
def execTsCompose (low high : Half) (s : State) : Result := finish s (joinHalves low high)

/-- TS.DECOMPOSE (42 R121): R1 = {high, low}. -/
def execTsDecompose (ts : Word) (s : State) : Result := finish s (joinHalves (lowHalf ts) (highHalf ts))

/-- TS.GET (42 R125). -/
def execTsGet (variant : Variant) (low high : Half) (s : State) : Result :=
  match variant with
  | .plain => finish s (joinHalves low high)
  | .ext => finish s (extTimestamp s.cfg.tsLayout low high)

/-- TS.SET (42 R126): R1 is the new record {high', low'}. -/
def execTsSet (variant : Variant) (_low high : Half) (ts : Word) (s : State) : Result :=
  match variant with
  | .plain => finish s (joinHalves (lowHalf ts) (highHalf ts))
  | .ext => finish s (joinHalves (lowHalf ts) (extHigh s.cfg.tsLayout high ts))

end Sys2Proof.Machine
end

