-- ==== Sys2Proof/Machine/Dispatch.lean ====
section
/-! DEFINITION. The one dispatch: each command to its meaning. -/

namespace Sys2Proof.Machine

def exec (i : Instr) (s : State) : Host.Outcome State Fault Refusal :=
  match i with
  | .bfGet b n index => Sys2Proof.Machine.execBfGet b n index s
  | .bfSet b n index value => Sys2Proof.Machine.execBfSet b n index value s
  | .tsCompose low high => Sys2Proof.Machine.execTsCompose low high s
  | .tsDecompose ts => Sys2Proof.Machine.execTsDecompose ts s
  | .tsGet variant low high => Sys2Proof.Machine.execTsGet variant low high s
  | .tsSet variant low high ts => Sys2Proof.Machine.execTsSet variant low high ts s
  | .ovSize headerSize count childSize => Sys2Proof.Machine.execOvSize headerSize count childSize s
  | .ovWrite headerSize count childSize payload => Sys2Proof.Machine.execOvWrite headerSize count childSize payload s
  | .ovRead headerSize childSize => Sys2Proof.Machine.execOvRead headerSize childSize s

end Sys2Proof.Machine
end

