-- ==== Sys2Proof/Machine/HostPort.lean ====
section
/-! DEFINITION. The host's moves (60 R186, R192; 70 R200, R203): the command port, the response port and the host's
own access to the memories between commands. -/

namespace Sys2Proof.Machine

/-- The block executes the packet on its command port (30 R80, 60 R186): a packet that is no command is answered
IllegalCommand, with no memory access and no other change. -/
def runPacket (pkt : Bytes) (s : State) : Result :=
  match decode pkt with
  | .error _ => fail s .illegalCommand
  | .ok i => exec i s

/-- A packet: a byte sequence of at least 32 bytes (30 R70). -/
def isPacket (pkt : Bytes) : Bool := pkt.wf && decide (32 ≤ pkt.len)

/-- A WS the host may attach: M below 2^58, words of W bits (00 R10, 10 R26). -/
def isWordStream (cfg : Config) (ws : Words) : Bool := ws.wf && decide (ws.len < 2 ^ 58) && ws.narrow cfg.W

/-- A BUF the host may attach: L below 2^64 (00 R10). -/
def isBuffer (buf : Bytes) : Bool := buf.wf && decide (buf.len < 2 ^ 64)

/-- One response is taken, the oldest (60 R186). -/
def takeResponse (s : State) : Result :=
  match s.responses with
  | [] => .refused .noResponse
  | r :: rest => .next ((s.setResponses rest).observe (.response r))

/-- One move of the host, and what the block does on it. -/
def perform (a : HostAction) (s : State) : Result :=
  match a with
  | .issue pkt => if isPacket pkt then runPacket pkt s else .refused .notAPacket
  | .takeResponse => takeResponse s
  | .attachWs ws => if isWordStream s.cfg ws then .next (s.setWs ws) else .refused .notALaunchMemory
  | .detachWs => .next (s.setWs Memory.empty)
  | .readWord k => readWs s k fun v => .next (s.observe (.word k v))
  | .writeWord k v => if v.toNat < 2 ^ s.cfg.W then writeWs s k v fun t => .next t else .refused .wordTooWide
  | .attachBuf buf => if isBuffer buf then .next (s.setBuf buf) else .refused .notALaunchMemory
  | .detachBuf => .next (s.setBuf Memory.empty)
  | .readByte a => memRead s a 1 fun p => .next (s.observe (.byte a (p.get 0)))
  | .writeByte a v => memWrite s a (Memory.ofList [v]) fun t => .next t
  | .reset => .next s

end Sys2Proof.Machine
end

