-- ==== Sys2Proof/Machine/Step.lean ====
section
/-! DEFINITION. One step of the machine: the next of the host's moves is performed (60 R186); with none to come the
block is idle and nothing changes (10 R32). -/

namespace Sys2Proof.Machine

def step (s : State) : Host.Outcome State Fault Refusal :=
  match s.inbox with
  | [] => .next s
  | a :: rest => perform a (s.setInbox rest)

/-- The state in which the host's next move is to issue the command whose bits are `w` (assumption 6). -/
def State.withFetchWord (s : State) (nbits w : Nat) : State :=
  s.setInbox (.issue (tablePacket nbits w) :: s.inbox)

end Sys2Proof.Machine
end

