-- ==== Sys2Proof/Safety.lean ====
section
/-! DEFINITION. What the machine keeps true of its state, in the terms the claims use. -/

namespace Sys2Proof.Machine

/-- A response as 30 R73 and 60 R177 have it: with a nonzero status, R1 = 0 and no payload. -/
def Response.wf (r : Response) : Bool :=
  r.payload.wf && match r.status with
    | .ok => true
    | .error _ => decide (r.r1 = 0) && decide (r.payload = Memory.empty)

/-- A response the host was given is well formed. -/
def Observation.wf : Observation → Bool
  | .response r => r.wf
  | .word _ _ => true
  | .byte _ _ => true

/-- The state is one the spec's machine can be in: the layout record has its three fields side by side, WS and BUF
are memories of the launch's range in canonical form, WS holds W-bit words, and every response is well formed. -/
def State.wf (s : State) : Bool :=
  s.cfg.tsLayout.wf && isWordStream s.cfg s.ws && isBuffer s.buf &&
    s.responses.all Response.wf && s.observed.all Observation.wf

/-- The move issues a packet: the only move on which the block acts (60 R184). -/
def HostAction.isCommand : HostAction → Bool
  | .issue _ => true
  | .takeResponse => false
  | .attachWs _ => false
  | .detachWs => false
  | .readWord _ => false
  | .writeWord _ _ => false
  | .attachBuf _ => false
  | .detachBuf => false
  | .readByte _ => false
  | .writeByte _ _ => false
  | .reset => false

/-- The count OV.READ finds in BUF behind a header of `hs` bytes (43 R156). -/
def storedCount (s : State) (hs : Nat) : Nat := decCount s.cfg (s.buf.slice hs s.cfg.countBytes)

/-- The status the newest response of a state carries, if there is one. -/
def State.lastStatus (s : State) : Option Status := s.responses.getLast?.map Response.status

end Sys2Proof.Machine
end

