-- ==== Sys2Proof/WellFormed.lean ====
section
/-! DEFINITION. The part of value-level legality (30 R79) that depends neither on the instance nor on the memories.
A term that fails it can still be encoded and presented: the block answers it with IllegalCommand. -/

namespace Sys2Proof

/-- A width some instance accepts: `1 ≤ B ≤ 64` (30 R79, R81). -/
def fieldWidthWf (b : BitVec 7) : Bool := decide (1 ≤ b.toNat) && decide (b.toNat ≤ 64)

/-- A child holds at least one byte (30 R79, 92 D22). -/
def childSizeWf (childSize : Word) : Bool := decide (1 ≤ childSize.toNat)

/-- The payload has exactly `header_size + count * child_size` bytes (30 R79, R82). -/
def payloadLengthWf (headerSize count childSize : Word) (payload : Bytes) : Bool :=
  decide (payload.len = headerSize.toNat + count.toNat * childSize.toNat)

/-- The command is legal on some instance with some memories, and its payload is a byte sequence in canonical form. -/
def Instr.wellFormed : Instr → Bool
  | .bfGet b _ _ => fieldWidthWf b
  | .bfSet b _ _ _ => fieldWidthWf b
  | .tsCompose _ _ => true
  | .tsDecompose _ => true
  | .tsGet _ _ _ => true
  | .tsSet _ _ _ _ => true
  | .ovSize _ _ _ => true
  | .ovWrite hs c cs p => childSizeWf cs && payloadLengthWf hs c cs p && p.wf
  | .ovRead _ cs => childSizeWf cs

end Sys2Proof
end

