-- ==== Sys2Proof/Certificates/Slice0/Obligations.lean ====
section
/-! DEFINITION. What is to be proved of the machine. Each docstring names the rule of spec/ it formalises. -/

open Sys2Proof Sys2Proof.Machine

/-! ### Packets -/

/-- 30 R71, R72, R74 to R78: the decoder reads back every operand the encoder wrote, at every value the fields admit,
legal or not. -/
def Obligations.DecodeOfEncode : Prop :=
  ∀ i : Instr, i.payload.wf = true → decode (encode i) = .ok i

/-- 30 R77, R80, R81: a packet that decodes is the encoding of its command: no bit of it is without effect. -/
def Obligations.EncodeOfDecode : Prop :=
  ∀ (pkt : Bytes) (i : Instr), pkt.wf = true → decode pkt = .ok i → encode i = pkt

/-- 30 R84: the three worked encodings, byte for byte: the packet decodes to the command and the command encodes to the
packet. -/
def Obligations.WorkedEncodings : Prop :=
  ∀ w ∈ ([
    (.bfSet 14 4 2 0x2ABC, Memory.ofList [0x02, 0x0E, 0, 0, 4, 0, 0, 0, 2, 0, 0, 0, 0, 0, 0, 0, 0xBC, 0x2A, 0, 0, 0, 0,
      0, 0, 0, 0, 0, 0, 0, 0, 0, 0]),
    (.tsGet .ext 0xDEADBEEF 0x80011234, Memory.ofList [0x12, 0x80, 0, 0, 0, 0, 0, 0, 0xEF, 0xBE, 0xAD, 0xDE, 0x34, 0x12,
      0x01, 0x80, 0, 0, 0, 0, 0, 0, 0, 0, 0, 0, 0, 0, 0, 0, 0, 0]),
    (.ovWrite 4 2 3 (Memory.ofList [0xA1, 0xA2, 0xA3, 0xA4, 0xC0, 0xC1, 0xC2, 0xD0, 0xD1, 0xD2]),
      Memory.ofList [0x21, 0, 0, 0, 0, 0, 0, 0, 4, 0, 0, 0, 0, 0, 0, 0, 2, 0, 0, 0, 0, 0, 0, 0, 3, 0, 0, 0, 0, 0, 0, 0,
        0xA1, 0xA2, 0xA3, 0xA4, 0xC0, 0xC1, 0xC2, 0xD0, 0xD1, 0xD2])] : List (Instr × Bytes)),
    decode w.2 = .ok w.1 ∧ encode w.1 = w.2

/-- 30 R81 (with R72, R77, R79): an unused opcode, any set bit of a field that must be zero, a payload where none
belongs, and a width of 0 or above W are each answered IllegalCommand, with nothing else changed. -/
def Obligations.ReservedSpaceIsIllegal : Prop :=
  ∀ (s : State) (pkt : Bytes) (rest : List HostAction), s.inbox = .issue pkt :: rest → pkt.wf = true → 32 ≤ pkt.len →
    ((fieldOP (descriptorOf pkt) ∉ ([0x01, 0x02, 0x10, 0x11, 0x12, 0x13, 0x20, 0x21, 0x22] : List Byte)) ∨
      (descriptorOf pkt).extractLsb' 16 16 ≠ 0 ∨
      (fieldOP (descriptorOf pkt) ∉ ([0x01, 0x02] : List Byte) ∧
        (fieldBW (descriptorOf pkt) ≠ 0 ∨ fieldNS (descriptorOf pkt) ≠ 0)) ∨
      (fieldOP (descriptorOf pkt) ∉ ([0x12, 0x13] : List Byte) ∧ (descriptorOf pkt).getLsbD 15 = true) ∨
      (fieldOP (descriptorOf pkt) = 0x11 ∧ fieldQ1 (descriptorOf pkt) ≠ 0) ∨
      (fieldOP (descriptorOf pkt) ∈ ([0x01, 0x10, 0x12, 0x22] : List Byte) ∧ fieldQ2 (descriptorOf pkt) ≠ 0) ∨
      (fieldOP (descriptorOf pkt) ∈ ([0x01, 0x02, 0x10, 0x11, 0x12, 0x13] : List Byte) ∧
        fieldQ3 (descriptorOf pkt) ≠ 0) ∨
      (fieldOP (descriptorOf pkt) ≠ 0x21 ∧ pkt.len ≠ 32) ∨
      (fieldOP (descriptorOf pkt) ∈ ([0x01, 0x02] : List Byte) ∧
        ((fieldBW (descriptorOf pkt)).toNat = 0 ∨ s.cfg.W < (fieldBW (descriptorOf pkt)).toNat))) →
    step s = .next ((s.setInbox rest).raise .illegalCommand)

/-- 60 R186, 20 R53: a step whose next host move issues a packet is exactly the execution of the command the packet
decodes to, on the state as it is; nothing else happens around it but that the move is used up. -/
def Obligations.StepRunsDecodedCommand : Prop :=
  ∀ (s : State) (pkt : Bytes) (rest : List HostAction) (i : Instr), s.inbox = .issue pkt :: rest → pkt.wf = true →
    32 ≤ pkt.len → decode pkt = .ok i → step s = exec i (s.setInbox rest)

/-- 30 R80: a packet that does not decode is answered `respond(5, 0)`: no memory access, no state change. -/
def Obligations.UndecodablePacketIsIllegal : Prop :=
  ∀ (s : State) (pkt : Bytes) (rest : List HostAction) (e : DecodeError), s.inbox = .issue pkt :: rest →
    pkt.wf = true → 32 ≤ pkt.len → decode pkt = .error e →
    step s = .next ((s.setInbox rest).respond (.error .illegalCommand) 0 Memory.empty) ∧
      statusCode (.error .illegalCommand) = 5

/-- 30 R79: exactly the listed values are illegal; everything else about the operands of these commands is legal. -/
def Obligations.ValueLegality : Prop :=
  ∀ s : State,
    (∀ b n index, exec (.bfGet b n index) s = .next (s.raise .illegalCommand) ↔
      (b.toNat = 0 ∨ s.cfg.W < b.toNat ∨ s.cfg.W * s.ws.len < n.toNat * b.toNat)) ∧
    (∀ b n index value, exec (.bfSet b n index value) s = .next (s.raise .illegalCommand) ↔
      (b.toNat = 0 ∨ s.cfg.W < b.toNat ∨ s.cfg.W * s.ws.len < n.toNat * b.toNat)) ∧
    (∀ hs c cs p, exec (.ovWrite hs c cs p) s = .next (s.raise .illegalCommand) ↔
      (cs.toNat = 0 ∨ p.len ≠ hs.toNat + c.toNat * cs.toNat)) ∧
    (∀ hs cs, exec (.ovRead hs cs) s = .next (s.raise .illegalCommand) ↔ cs.toNat = 0) ∧
    (∀ hs c cs, exec (.ovSize hs c cs) s ≠ .next (s.raise .illegalCommand)) ∧
    (∀ pkt : Bytes, 32 < pkt.len → fieldOP (descriptorOf pkt) ≠ 0x21 →
      runPacket pkt s = .next (s.raise .illegalCommand))

/-- 30 R79: a command that no instance and no memory makes legal is answered IllegalCommand. -/
def Obligations.IllFormedCommandIsIllegal : Prop :=
  ∀ (i : Instr) (s : State), i.payload.wf = true → i.wellFormed = false →
    exec i s = .next (s.raise .illegalCommand)

/-- 60 R170, 30 R73: the number of each status, and the bytes of a response packet, whose first byte it is. -/
def Obligations.ResponsePacketBytes : Prop :=
  (statusCode .ok = 0 ∧ statusCode (.error .indexOutOfRange) = 1 ∧ statusCode (.error .valueOutOfRange) = 2 ∧
    statusCode (.error .bufferTooShort) = 3 ∧ statusCode (.error .sizeOverflow) = 4 ∧
    statusCode (.error .illegalCommand) = 5) ∧
  ∀ r : Response, r.payload.wf = true →
    (responsePacket r).wf = true ∧
    (responsePacket r).len = 16 + r.payload.len ∧
    (responsePacket r).get 0 = BitVec.ofNat 8 (statusCode r.status) ∧
    (∀ k, 1 ≤ k → k < 8 → (responsePacket r).get k = 0) ∧
    (∀ k, k < 8 → (responsePacket r).get (8 + k) = r.r1.extractLsb' (8 * k) 8) ∧
    (∀ k, k < r.payload.len → (responsePacket r).get (16 + k) = r.payload.get k)

/-! ### bit_field_codec -/

/-- 41 R100: the position of a sample and what follows from its definition. -/
def Obligations.SamplePositionFacts : Prop :=
  ∀ (cfg : Config) (B index : Nat), 1 ≤ B → B ≤ cfg.W →
    (samplePosition cfg.W B index).wordIndex = B * index / cfg.W ∧
    (samplePosition cfg.W B index).bitOffset = B * index % cfg.W ∧
    (samplePosition cfg.W B index).bitOffset < cfg.W ∧
    (samplePosition cfg.W B index).firstBits = min B (cfg.W - (samplePosition cfg.W B index).bitOffset) ∧
    1 ≤ (samplePosition cfg.W B index).firstBits ∧
    (samplePosition cfg.W B index).remainderBits = B - (samplePosition cfg.W B index).firstBits ∧
    (samplePosition cfg.W B index).remainderBits < B ∧
    (0 < (samplePosition cfg.W B index).remainderBits ↔ cfg.W < (samplePosition cfg.W B index).bitOffset + B) ∧
    (B ∣ cfg.W → (samplePosition cfg.W B index).remainderBits = 0) ∧
    (index < 2 ^ 32 → B * index < 2 ^ 38)

/-- 41 R101: the checks of both commands and their order, and that a sample that passes them lies inside WS. -/
def Obligations.FieldChecks : Prop :=
  ∀ (s : State) (b : BitVec 7) (n : BitVec 32) (index value : Word),
    (legalField b n s = false →
      exec (.bfGet b n index) s = .next (s.raise .illegalCommand) ∧
      exec (.bfSet b n index value) s = .next (s.raise .illegalCommand)) ∧
    (legalField b n s = true → n.toNat ≤ index.toNat →
      exec (.bfGet b n index) s = .next (s.raise .indexOutOfRange) ∧
      exec (.bfSet b n index value) s = .next (s.raise .indexOutOfRange)) ∧
    (legalField b n s = true → index.toNat < n.toNat → 2 ^ b.toNat ≤ value.toNat →
      exec (.bfSet b n index value) s = .next (s.raise .valueOutOfRange)) ∧
    (legalField b n s = true → index.toNat < n.toNat →
      (samplePosition s.cfg.W b.toNat index.toNat).wordIndex < s.ws.len ∧
      (0 < (samplePosition s.cfg.W b.toNat index.toNat).remainderBits →
        (samplePosition s.cfg.W b.toNat index.toNat).wordIndex + 1 < s.ws.len))

/-- 41 R107: BF.GET returns the stream bits of its sample as a number, BF.SET makes them the value and changes no
other stream bit. The stream is the bit string of 10 R27, which knows nothing of words. -/
def Obligations.BitStringCharacterisation : Prop :=
  ∀ (s : State) (b : BitVec 7) (n : BitVec 32) (index : Word), s.wf = true →
    1 ≤ b.toNat → b.toNat ≤ s.cfg.W → n.toNat * b.toNat ≤ s.cfg.W * s.ws.len → index.toNat < n.toNat →
    (∃ r : Word, exec (.bfGet b n index) s = .next (s.respond .ok r Memory.empty) ∧
      r.toNat = ∑ t ∈ Finset.range b.toNat,
        (if s.streamBit (b.toNat * index.toNat + t) then 2 ^ t else 0)) ∧
    (∀ value : Word, value.toNat < 2 ^ b.toNat →
      ∃ t : State, exec (.bfSet b n index value) s = .next t ∧ t.cfg = s.cfg ∧ t.ws.len = s.ws.len ∧
        t.responses = s.responses ++ [⟨.ok, 0, Memory.empty⟩] ∧
        (∀ k, k < b.toNat → t.streamBit (b.toNat * index.toNat + k) = value.getLsbD k) ∧
        (∀ u, u < b.toNat * index.toNat ∨ b.toNat * index.toNat + b.toNat ≤ u → t.streamBit u = s.streamBit u))

/-- 20 R59, R47; 41 R104: the frame of BF.SET. Only WS can change, and in it only the one or two words the sample
lies in. -/
def Obligations.BfSetFrame : Prop :=
  ∀ (s t : State) (b : BitVec 7) (n : BitVec 32) (index value : Word), s.wf = true →
    exec (.bfSet b n index value) s = .next t →
    t.cfg = s.cfg ∧ t.buf = s.buf ∧ t.inbox = s.inbox ∧ t.observed = s.observed ∧ t.ws.len = s.ws.len ∧
    (∃ r, t.responses = s.responses ++ [r]) ∧
    ∀ k, k ≠ (samplePosition s.cfg.W b.toNat index.toNat).wordIndex →
      ¬ (0 < (samplePosition s.cfg.W b.toNat index.toNat).remainderBits ∧
        k = (samplePosition s.cfg.W b.toNat index.toNat).wordIndex + 1) →
      t.ws.get k = s.ws.get k

/-- 41 R106: what BF.SET stored, BF.GET with the same operands returns. -/
def Obligations.SetThenGet : Prop :=
  ∀ (s : State) (b : BitVec 7) (n : BitVec 32) (index value : Word), s.wf = true → legalField b n s = true →
    index.toNat < n.toNat → value.toNat < 2 ^ b.toNat →
    ∃ t, exec (.bfSet b n index value) s = .next t ∧
      exec (.bfGet b n index) t = .next (t.respond .ok value Memory.empty)

/-- 41 R108: BF.SET at one index leaves every other sample of the same descriptor as BF.GET returned it before. -/
def Obligations.SamplesAreIndependent : Prop :=
  ∀ (s : State) (b : BitVec 7) (n : BitVec 32) (index j value : Word), s.wf = true → legalField b n s = true →
    index.toNat < n.toNat → j.toNat < n.toNat → j ≠ index → value.toNat < 2 ^ b.toNat →
    ∃ t r, exec (.bfSet b n index value) s = .next t ∧
      exec (.bfGet b n j) s = .next (s.respond .ok r Memory.empty) ∧
      exec (.bfGet b n j) t = .next (t.respond .ok r Memory.empty)

/-- 20 R47, 41 R102: BF.GET looks at the first word of its sample, and at the second only if the sample crosses: two
streams of one length that agree on those give the same response. -/
def Obligations.BfGetReadsOnlyItsWords : Prop :=
  ∀ (s : State) (ws' : Words) (b : BitVec 7) (n : BitVec 32) (index : Word), ws'.len = s.ws.len →
    ws'.get (samplePosition s.cfg.W b.toNat index.toNat).wordIndex =
      s.ws.get (samplePosition s.cfg.W b.toNat index.toNat).wordIndex →
    (0 < (samplePosition s.cfg.W b.toNat index.toNat).remainderBits →
      ws'.get ((samplePosition s.cfg.W b.toNat index.toNat).wordIndex + 1) =
        s.ws.get ((samplePosition s.cfg.W b.toNat index.toNat).wordIndex + 1)) →
    ∃ r : Response, exec (.bfGet b n index) s = .next (s.setResponses (s.responses ++ [r])) ∧
      exec (.bfGet b n index) (s.setWs ws') = .next ((s.setWs ws').setResponses (s.responses ++ [r]))

/-- 20 R42: a host that views WS as bytes sees the stream under `little`, and the bytes of each word reversed under
`big`. -/
def Obligations.StorageByteOrder : Prop :=
  ∀ s : State,
    (s.cfg.wordOrder = .little → ∀ t, s.streamBit t = (s.storageByte (t / 8)).getLsbD (t % 8)) ∧
    (s.cfg.wordOrder = .big → ∀ b i, i < 8 →
      (s.storageByte b).getLsbD i =
        s.streamBit (s.cfg.W * (b / (s.cfg.W / 8)) + (8 * (s.cfg.W / 8 - 1 - b % (s.cfg.W / 8)) + i)))

/-! ### timestamp_codec -/

/-- 42 R120: the encoding of TS.COMPOSE, and the timestamp of two halves. -/
def Obligations.ComposeResult : Prop :=
  ∀ (s : State) (low high : Half), descriptor (.tsCompose low high) = quads 0 0 (high ++ low) 0x10 ∧ ∃ r : Word,
    exec (.tsCompose low high) s = .next (s.respond .ok r Memory.empty) ∧
    r.toNat = low.toNat + 2 ^ 32 * high.toNat

/-- 42 R121: the encoding of TS.DECOMPOSE, and the halves of a timestamp; together they are the timestamp's own bits. -/
def Obligations.DecomposeResult : Prop :=
  ∀ (s : State) (ts : Word), descriptor (.tsDecompose ts) = quads 0 ts 0 0x11 ∧ ∃ r : Word,
    exec (.tsDecompose ts) s = .next (s.respond .ok r Memory.empty) ∧
    (r.extractLsb' 0 32).toNat = ts.toNat % 2 ^ 32 ∧ (r.extractLsb' 32 32).toNat = ts.toNat / 2 ^ 32 ∧ r = ts

/-- 42 R122: compose and decompose undo each other. -/
def Obligations.ComposeDecomposeInverse : Prop :=
  (∀ (s s' : State) (ts : Word), ∃ r : Word,
    exec (.tsDecompose ts) s = .next (s.respond .ok r Memory.empty) ∧
    exec (.tsCompose (r.extractLsb' 0 32) (r.extractLsb' 32 32)) s' = .next (s'.respond .ok ts Memory.empty)) ∧
  (∀ (s s' : State) (low high : Half), ∃ ts r : Word,
    exec (.tsCompose low high) s = .next (s.respond .ok ts Memory.empty) ∧
    exec (.tsDecompose ts) s' = .next (s'.respond .ok r Memory.empty) ∧
    r.extractLsb' 0 32 = low ∧ r.extractLsb' 32 32 = high)

/-- 42 R125: the encoding of TS.GET, and its result under both variants, field by field, with the layout of 42 R124. -/
def Obligations.TsGetResult : Prop :=
  ∀ (s : State) (low high : Half), s.cfg.tsLayout = TsLayout.r124 →
    descriptor (.tsGet .plain low high) = quads 0 0 (high ++ low) 0x12 ∧
    descriptor (.tsGet .ext low high) = quads 0 0 (high ++ low) 0x8012 ∧
    (∃ ts : Word, exec (.tsGet .plain low high) s = .next (s.respond .ok ts Memory.empty) ∧
      ts.extractLsb' 0 32 = low ∧ ts.extractLsb' 32 32 = high) ∧
    (∃ ts : Word, exec (.tsGet .ext low high) s = .next (s.respond .ok ts Memory.empty) ∧
      ts.extractLsb' 0 32 = low ∧ ts.extractLsb' 32 16 = high.extractLsb' 0 16 ∧
      ts.extractLsb' 48 15 = (if high.getLsbD 31 then high.extractLsb' 16 15 else 0) ∧
      ts.getLsbD 63 = false)

/-- 42 R126: the encoding of TS.SET, and its result under both variants, field by field, with the layout of 42 R124. -/
def Obligations.TsSetResult : Prop :=
  ∀ (s : State) (low high : Half) (ts : Word), s.cfg.tsLayout = TsLayout.r124 →
    descriptor (.tsSet .plain low high ts) = quads 0 ts (high ++ low) 0x13 ∧
    descriptor (.tsSet .ext low high ts) = quads 0 ts (high ++ low) 0x8013 ∧
    (∃ r : Word, exec (.tsSet .plain low high ts) s = .next (s.respond .ok r Memory.empty) ∧
      r.extractLsb' 0 32 = ts.extractLsb' 0 32 ∧ r.extractLsb' 32 32 = ts.extractLsb' 32 32) ∧
    (∃ r : Word, exec (.tsSet .ext low high ts) s = .next (s.respond .ok r Memory.empty) ∧
      r.extractLsb' 0 32 = ts.extractLsb' 0 32 ∧
      r.extractLsb' 32 16 = ts.extractLsb' 32 16 ∧
      r.extractLsb' 48 15 = (if high.getLsbD 31 then ts.extractLsb' 48 15 else high.extractLsb' 16 15) ∧
      r.getLsbD 63 = high.getLsbD 31)

/-- 42 R127 (a) to (d): the flag is never altered, the extension field is untouched when the flag is clear, a
timestamp comes back less the bits that cannot be represented (so every representable one comes back whole), and
setting twice is setting once. -/
def Obligations.TimestampInvariants : Prop :=
  ∀ (s : State) (low high : Half) (ts : Word), s.cfg.tsLayout = TsLayout.r124 →
    (∃ r : Word, exec (.tsSet .plain low high ts) s = .next (s.respond .ok r Memory.empty) ∧
      exec (.tsGet .plain (r.extractLsb' 0 32) (r.extractLsb' 32 32)) s = .next (s.respond .ok ts Memory.empty) ∧
      exec (.tsSet .plain (r.extractLsb' 0 32) (r.extractLsb' 32 32) ts) s =
        .next (s.respond .ok r Memory.empty)) ∧
    (∃ r back : Word, exec (.tsSet .ext low high ts) s = .next (s.respond .ok r Memory.empty) ∧
      (r.extractLsb' 32 32).getLsbD 31 = high.getLsbD 31 ∧
      (high.getLsbD 31 = false → (r.extractLsb' 32 32).extractLsb' 16 15 = high.extractLsb' 16 15) ∧
      exec (.tsGet .ext (r.extractLsb' 0 32) (r.extractLsb' 32 32)) s = .next (s.respond .ok back Memory.empty) ∧
      back.toNat = ts.toNat % (if high.getLsbD 31 then 2 ^ 63 else 2 ^ 48) ∧
      exec (.tsSet .ext (r.extractLsb' 0 32) (r.extractLsb' 32 32) ts) s = .next (s.respond .ok r Memory.empty))

/-- 93 U10, 42 R124, R127: the same of every layout record whose three fields lie side by side, whatever the
positions and the polarity of the flag. -/
def Obligations.TimestampInvariantsAnyLayout : Prop :=
  ∀ (s : State) (low high : Half) (ts : Word), s.cfg.tsLayout.wf = true →
    ∃ r back : Word, exec (.tsSet .ext low high ts) s = .next (s.respond .ok r Memory.empty) ∧
      (extFieldsOf s.cfg.tsLayout (r.extractLsb' 32 32)).en = (extFieldsOf s.cfg.tsLayout high).en ∧
      ((extFieldsOf s.cfg.tsLayout high).en = false →
        (extFieldsOf s.cfg.tsLayout (r.extractLsb' 32 32)).ext = (extFieldsOf s.cfg.tsLayout high).ext) ∧
      exec (.tsGet .ext (r.extractLsb' 0 32) (r.extractLsb' 32 32)) s = .next (s.respond .ok back Memory.empty) ∧
      back.toNat = ts.toNat % (if (extFieldsOf s.cfg.tsLayout high).en then 2 ^ 63 else 2 ^ 48)

/-- 42 R130: under plain-64 TS.GET is TS.COMPOSE and TS.SET is TS.DECOMPOSE, whatever the old record. -/
def Obligations.PlainVariantRedundancy : Prop :=
  ∀ (s : State) (low high : Half) (ts : Word),
    exec (.tsGet .plain low high) s = exec (.tsCompose low high) s ∧
    exec (.tsSet .plain low high ts) s = exec (.tsDecompose ts) s

/-! ### overlay_serializer -/

/-- 00 R15: the bytes of the count field in both orders, and that the count is read back from them. -/
def Obligations.CountFieldConversion : Prop :=
  ∀ (cfg : Config) (c : Nat), c < 2 ^ (8 * cfg.countBytes) →
    (encCount cfg c).wf = true ∧ (encCount cfg c).len = cfg.countBytes ∧
    (∀ j, j < cfg.countBytes →
      (cfg.countOrder = .little → ((encCount cfg c).get j).toNat = c / 2 ^ (8 * j) % 256) ∧
      (cfg.countOrder = .big →
        ((encCount cfg c).get j).toNat = c / 2 ^ (8 * (cfg.countBytes - 1 - j)) % 256)) ∧
    decCount cfg (encCount cfg c) = c ∧
    (∀ s : Bytes, s.wf = true → s.len = cfg.countBytes → decCount cfg s = c → s = encCount cfg c)

/-- 43 R142: the encoding of OV.SIZE, and its answer: the exact size if it fits the length type, else SizeOverflow. -/
def Obligations.OvSizeResult : Prop :=
  ∀ (s : State) (hs c cs : Word),
    descriptor (.ovSize hs c cs) = quads cs c hs 0x20 ∧
    (hs.toNat + s.cfg.countBytes + c.toNat * cs.toNat < 2 ^ s.cfg.lenBits.bits →
      ∃ r : Word, exec (.ovSize hs c cs) s = .next (s.respond .ok r Memory.empty) ∧
        r.toNat = hs.toNat + s.cfg.countBytes + c.toNat * cs.toNat) ∧
    (2 ^ s.cfg.lenBits.bits ≤ hs.toNat + s.cfg.countBytes + c.toNat * cs.toNat →
      exec (.ovSize hs c cs) s = .next (s.raise .sizeOverflow))

/-- 43 R150, 10 R29: the encoding of OV.WRITE, what it stores, byte by byte, and when it stores nothing. Its frame: nothing but BUF and
the response port changes, and BUF only in [0, size). -/
def Obligations.OvWriteResult : Prop :=
  ∀ (s : State) (hs c cs : Word) (p : Bytes), s.wf = true → p.wf = true →
    descriptor (.ovWrite hs c cs p) = quads cs c hs 0x21 ∧
    (encode (.ovWrite hs c cs p)).len = 32 + p.len ∧
    (cs.toNat = 0 ∨ p.len ≠ hs.toNat + c.toNat * cs.toNat →
      exec (.ovWrite hs c cs p) s = .next (s.raise .illegalCommand)) ∧
    (1 ≤ cs.toNat → p.len = hs.toNat + c.toNat * cs.toNat →
      (2 ^ (8 * s.cfg.countBytes) ≤ c.toNat → exec (.ovWrite hs c cs p) s = .next (s.raise .valueOutOfRange)) ∧
      (c.toNat < 2 ^ (8 * s.cfg.countBytes) → 2 ^ s.cfg.lenBits.bits ≤ recordSize s.cfg hs.toNat c.toNat cs.toNat →
        exec (.ovWrite hs c cs p) s = .next (s.raise .sizeOverflow)) ∧
      (c.toNat < 2 ^ (8 * s.cfg.countBytes) → recordSize s.cfg hs.toNat c.toNat cs.toNat < 2 ^ s.cfg.lenBits.bits →
        s.buf.len < recordSize s.cfg hs.toNat c.toNat cs.toNat →
        exec (.ovWrite hs c cs p) s = .next (s.raise .bufferTooShort)) ∧
      (c.toNat < 2 ^ (8 * s.cfg.countBytes) → recordSize s.cfg hs.toNat c.toNat cs.toNat < 2 ^ s.cfg.lenBits.bits →
        recordSize s.cfg hs.toNat c.toNat cs.toNat ≤ s.buf.len →
        ∃ buf' : Bytes, exec (.ovWrite hs c cs p) s = .next ((s.setBuf buf').respond .ok 0 Memory.empty) ∧
          buf'.len = s.buf.len ∧
          (∀ j, j < hs.toNat → buf'.get j = p.get j) ∧
          (∀ j, j < s.cfg.countBytes → buf'.get (hs.toNat + j) = (encCount s.cfg c.toNat).get j) ∧
          (∀ i j, i < c.toNat → j < cs.toNat →
            buf'.get (hs.toNat + s.cfg.countBytes + i * cs.toNat + j) = p.get (hs.toNat + i * cs.toNat + j)) ∧
          (∀ a, recordSize s.cfg hs.toNat c.toNat cs.toNat ≤ a → buf'.get a = s.buf.get a)))

/-- 43 R156: the encoding of OV.READ, its two stages and what it returns. -/
def Obligations.OvReadResult : Prop :=
  ∀ (s : State) (hs cs : Word), s.wf = true →
    descriptor (.ovRead hs cs) = quads cs 0 hs 0x22 ∧
    (cs.toNat = 0 → exec (.ovRead hs cs) s = .next (s.raise .illegalCommand)) ∧
    (1 ≤ cs.toNat →
      (2 ^ s.cfg.lenBits.bits ≤ hs.toNat + s.cfg.countBytes →
        exec (.ovRead hs cs) s = .next (s.raise .sizeOverflow)) ∧
      (hs.toNat + s.cfg.countBytes < 2 ^ s.cfg.lenBits.bits → s.buf.len < hs.toNat + s.cfg.countBytes →
        exec (.ovRead hs cs) s = .next (s.raise .bufferTooShort)) ∧
      (hs.toNat + s.cfg.countBytes < 2 ^ s.cfg.lenBits.bits → hs.toNat + s.cfg.countBytes ≤ s.buf.len →
        2 ^ s.cfg.lenBits.bits ≤ recordSize s.cfg hs.toNat (storedCount s hs.toNat) cs.toNat →
        exec (.ovRead hs cs) s = .next (s.raise .sizeOverflow)) ∧
      (hs.toNat + s.cfg.countBytes ≤ s.buf.len →
        recordSize s.cfg hs.toNat (storedCount s hs.toNat) cs.toNat < 2 ^ s.cfg.lenBits.bits →
        s.buf.len < recordSize s.cfg hs.toNat (storedCount s hs.toNat) cs.toNat →
        exec (.ovRead hs cs) s = .next (s.raise .bufferTooShort)) ∧
      (recordSize s.cfg hs.toNat (storedCount s hs.toNat) cs.toNat < 2 ^ s.cfg.lenBits.bits →
        recordSize s.cfg hs.toNat (storedCount s hs.toNat) cs.toNat ≤ s.buf.len →
        ∃ (r : Word) (p : Bytes), exec (.ovRead hs cs) s = .next (s.respond .ok r p) ∧
          r.toNat = storedCount s hs.toNat ∧ p.wf = true ∧
          p.len = recordSize s.cfg hs.toNat (storedCount s hs.toNat) cs.toNat - s.cfg.countBytes ∧
          (∀ j, j < hs.toNat → p.get j = s.buf.get j) ∧
          (∀ i j, i < storedCount s hs.toNat → j < cs.toNat →
            p.get (hs.toNat + i * cs.toNat + j) =
              s.buf.get (hs.toNat + s.cfg.countBytes + i * cs.toNat + j))))

/-- 43 R160: what OV.WRITE stored, OV.READ with the same sizes returns whole, for every count. -/
def Obligations.WriteThenRead : Prop :=
  ∀ (s : State) (hs c cs : Word) (p : Bytes) (t : State), s.wf = true → p.wf = true →
    exec (.ovWrite hs c cs p) s = .next t → t.lastStatus = some .ok →
    exec (.ovRead hs cs) t = .next (t.respond .ok c p)

/-- 43 R161: a count that claims more than the buffer holds is answered BufferTooShort or SizeOverflow, whatever the
buffer's bytes, and BufferTooShort in the document's own case, where the buffer is sized for one child fewer. -/
def Obligations.MalformedOverlay : Prop :=
  ∀ (s : State) (hs cs : Word), 1 ≤ cs.toNat →
    (s.buf.len < recordSize s.cfg hs.toNat (storedCount s hs.toNat) cs.toNat →
      exec (.ovRead hs cs) s = .next (s.raise .bufferTooShort) ∨
      exec (.ovRead hs cs) s = .next (s.raise .sizeOverflow)) ∧
    (1 ≤ storedCount s hs.toNat →
      s.buf.len = recordSize s.cfg hs.toNat (storedCount s hs.toNat - 1) cs.toNat →
      recordSize s.cfg hs.toNat (storedCount s hs.toNat) cs.toNat < 2 ^ s.cfg.lenBits.bits →
      exec (.ovRead hs cs) s = .next (s.raise .bufferTooShort))

/-- 20 R47, 10 R30: what OV.READ looks at. Two buffers of one length that agree on the fixed part, and, where the
record fits the buffer, on the record, give the same response: bytes above the record are never read, and on a
failure no byte above the count field is. -/
def Obligations.OvReadReadsOnlyTheRecord : Prop :=
  ∀ (s : State) (buf' : Bytes) (hs cs : Word), s.buf.wf = true → buf'.wf = true → buf'.len = s.buf.len →
    (∀ a, a < hs.toNat + s.cfg.countBytes → buf'.get a = s.buf.get a) →
    (recordSize s.cfg hs.toNat (storedCount s hs.toNat) cs.toNat ≤ s.buf.len →
      recordSize s.cfg hs.toNat (storedCount s hs.toNat) cs.toNat < 2 ^ s.cfg.lenBits.bits →
      ∀ a, a < recordSize s.cfg hs.toNat (storedCount s hs.toNat) cs.toNat → buf'.get a = s.buf.get a) →
    ∃ r : Response, exec (.ovRead hs cs) s = .next (s.setResponses (s.responses ++ [r])) ∧
      exec (.ovRead hs cs) (s.setBuf buf') = .next ((s.setBuf buf').setResponses (s.responses ++ [r]))

/-- 43 R162: a BUF of the size OV.SIZE answers is exactly large enough: OV.WRITE succeeds and every byte of BUF is
then the record's, and with one byte less it fails with BufferTooShort. -/
def Obligations.SizingLaw : Prop :=
  ∀ (s : State) (hs c cs r : Word) (p : Bytes), s.wf = true → p.wf = true → 1 ≤ cs.toNat →
    p.len = hs.toNat + c.toNat * cs.toNat → c.toNat < 2 ^ (8 * s.cfg.countBytes) →
    exec (.ovSize hs c cs) s = .next (s.respond .ok r Memory.empty) →
    (s.buf.len = r.toNat →
      exec (.ovWrite hs c cs p) s =
        .next ((s.setBuf (((p.slice 0 hs.toNat).append (encCount s.cfg c.toNat)).append
          (p.slice hs.toNat (c.toNat * cs.toNat)))).respond .ok 0 Memory.empty)) ∧
    (s.buf.len + 1 = r.toNat → exec (.ovWrite hs c cs p) s = .next (s.raise .bufferTooShort))

/-! ### The whole machine -/

/-- 60 R186, 20 R52: every command, on every state, is answered with exactly one response; none blocks, none makes an
access outside its memory (that would be a fault), and none changes M, L, a parameter or what the host does next. -/
def Obligations.EveryCommandAnswersOnce : Prop :=
  ∀ (i : Instr) (s : State), ∃ (t : State) (r : Response), exec i s = .next t ∧
    t.responses = s.responses ++ [r] ∧ t.cfg = s.cfg ∧ t.ws.len = s.ws.len ∧ t.buf.len = s.buf.len ∧
    t.inbox = s.inbox ∧ t.observed = s.observed

/-- 10 R34, 41 R103, 43 R158, 20 R47: the commands that store nothing leave everything as it was but for their one
response: every word of WS, every byte of BUF, the parameters, the host's side. -/
def Obligations.ReadingCommandsStoreNothing : Prop :=
  ∀ (i : Instr) (s : State), i.opcode ≠ .bfSet → i.opcode ≠ .ovWrite →
    ∃ r : Response, exec i s = .next (s.setResponses (s.responses ++ [r]))

/-- 60 R176, R177: a command with a nonzero status leaves WS and BUF exactly as they were, and its response has R1 = 0
and no payload. -/
def Obligations.FailedCommandsLeaveNoTrace : Prop :=
  ∀ (i : Instr) (s : State), ∃ (t : State) (r : Response), exec i s = .next t ∧
    t.responses = s.responses ++ [r] ∧
    (r.status ≠ .ok → t = s.setResponses (s.responses ++ [r]) ∧ r.r1 = 0 ∧ r.payload = Memory.empty)

/-- 60 R183: which command can return which status. -/
def Obligations.StatusTable : Prop :=
  ∀ (i : Instr) (s : State), ∃ (t : State) (r : Response), exec i s = .next t ∧
    t.responses = s.responses ++ [r] ∧
    (r.status = .error .indexOutOfRange → i.opcode = .bfGet ∨ i.opcode = .bfSet) ∧
    (r.status = .error .valueOutOfRange →
      i.opcode = .bfSet ∨ (i.opcode = .ovWrite ∧ s.cfg.countBytes < 8)) ∧
    (r.status = .error .bufferTooShort → i.opcode = .ovWrite ∨ i.opcode = .ovRead) ∧
    (r.status = .error .sizeOverflow → i.opcode = .ovSize ∨ i.opcode = .ovWrite ∨ i.opcode = .ovRead)

/-- 10 R20: what a command does to (WS, BUF) and what it answers depend on (WS, BUF), the command and the static
parameters and on nothing else: no history, no earlier response, nothing of what the host does next. -/
def Obligations.NoHiddenState : Prop :=
  ∀ (i : Instr) (s s' : State), s.cfg = s'.cfg → s.ws = s'.ws → s.buf = s'.buf →
    ∃ (ws : Words) (buf : Bytes) (r : Response),
      exec i s = .next (((s.setWs ws).setBuf buf).setResponses (s.responses ++ [r])) ∧
      exec i s' = .next (((s'.setWs ws).setBuf buf).setResponses (s'.responses ++ [r]))

/-- 60 R180: a command that failed has given its one error response, and after it any command does what it would have
done had the failed one never been issued. -/
def Obligations.RecoveryAfterError : Prop :=
  ∀ (i j : Instr) (s t : State) (e : CmdError), exec i s = .next t → t.lastStatus = some (.error e) →
    t.responses = s.responses ++ [⟨.error e, 0, Memory.empty⟩] ∧
    ∃ (ws : Words) (buf : Bytes) (r : Response),
      exec j s = .next (((s.setWs ws).setBuf buf).setResponses (s.responses ++ [r])) ∧
      exec j t = .next (((t.setWs ws).setBuf buf).setResponses (t.responses ++ [r]))

/-- 20 R49: repeating a successful command on the state it produced leaves WS and BUF as they are, and gives the same
response. -/
def Obligations.RepeatingChangesNothing : Prop :=
  ∀ (i : Instr) (s t : State) (r : Response), s.wf = true → i.payload.wf = true → exec i s = .next t →
    t.responses = s.responses ++ [r] → r.status = .ok →
    exec i t = .next (t.setResponses (t.responses ++ [r]))

/-- 00 R9, R10, 10 R26, 30 R73: the state stays one the spec's machine can be in: a launch-range WS of W-bit words and
a launch-range BUF, both in canonical form, and well-formed responses. -/
def Obligations.StepKeepsStateWellFormed : Prop :=
  ∀ s t : State, s.wf = true → step s = .next t → t.wf = true

/-- 10 R33, R21; 70 R200: after reset the block is idle, no memory is attached, nothing is pending, and the state is
well formed, for every instance. (W = 32 in `State.reset` is the model's choice, assumption 1.) -/
def Obligations.ResetIsIdleAndWellFormed : Prop :=
  State.reset = State.resetOf (Config.default .w32) ∧
  ∀ c : Config, c.tsLayout.wf = true →
    (State.resetOf c).wf = true ∧ (State.resetOf c).cfg = c ∧ (State.resetOf c).ws.len = 0 ∧
    (State.resetOf c).buf.len = 0 ∧ (State.resetOf c).responses = [] ∧
    step (State.resetOf c) = .next (State.resetOf c)

/-- 70 R200: reset of the idle block changes nothing: WS, BUF, M, L and the parameters stay, and so does everything a
later command can see. -/
def Obligations.ResetChangesNothing : Prop :=
  ∀ (s : State) (rest : List HostAction), s.inbox = .reset :: rest → step s = .next (s.setInbox rest)

/-- 60 R184, R186: the block acts on commands only. A step whose next host move issues no command adds no response,
takes at most the oldest, keeps the parameters, and changes WS or BUF only where the move is the host's own attach,
detach or write; with no move to come nothing changes at all. -/
def Obligations.BlockActsOnlyOnCommands : Prop :=
  ∀ s t : State, s.inbox.head?.map HostAction.isCommand ≠ some true → step s = .next t →
    t.cfg = s.cfg ∧ t.inbox = s.inbox.tail ∧ (s.inbox = [] → t = s) ∧
    (∃ taken, s.responses = taken ++ t.responses ∧ taken.length ≤ 1) ∧
    (t.ws = s.ws ∨ s.inbox.head? = some .detachWs ∨ (∃ ws, s.inbox.head? = some (.attachWs ws)) ∨
      ∃ k v, s.inbox.head? = some (.writeWord k v)) ∧
    (t.buf = s.buf ∨ s.inbox.head? = some .detachBuf ∨ (∃ buf, s.inbox.head? = some (.attachBuf buf)) ∨
      ∃ a v, s.inbox.head? = some (.writeByte a v))

/-- 60 R186, R192, 10 R21, 20 R50, 70 R203: the host's moves on the response port and on the memories: the oldest
response is the one taken, an attached memory takes the place of the one before, a detached one leaves the empty
memory, and a read or write at an address that does not exist is a fault (assumption 9). -/
def Obligations.HostMoves : Prop :=
  ∀ (s : State) (rest : List HostAction),
    (∀ r rs, s.inbox = .takeResponse :: rest → s.responses = r :: rs →
      step s = .next (((s.setInbox rest).setResponses rs).observe (.response r))) ∧
    (∀ ws, s.inbox = .attachWs ws :: rest → isWordStream s.cfg ws = true →
      step s = .next ((s.setInbox rest).setWs ws)) ∧
    (∀ buf, s.inbox = .attachBuf buf :: rest → isBuffer buf = true → step s = .next ((s.setInbox rest).setBuf buf)) ∧
    (s.inbox = .detachWs :: rest → step s = .next ((s.setInbox rest).setWs Memory.empty)) ∧
    (s.inbox = .detachBuf :: rest → step s = .next ((s.setInbox rest).setBuf Memory.empty)) ∧
    (∀ k, s.inbox = .readWord k :: rest → s.ws.len ≤ k → step s = .fault (.wsAddress k)) ∧
    (∀ k v, s.inbox = .writeWord k v :: rest → v.toNat < 2 ^ s.cfg.W → s.ws.len ≤ k →
      step s = .fault (.wsAddress k)) ∧
    (∀ a, s.inbox = .readByte a :: rest → s.buf.len ≤ a → step s = .fault (.bufAddress a)) ∧
    (∀ a v, s.inbox = .writeByte a v :: rest → s.buf.len ≤ a → step s = .fault (.bufAddress a))

/-- 20 R53 (b), (d), 60 R192: a word or byte the host wrote between commands is what it then reads, and every other
word or byte reads as before. -/
def Obligations.HostWritesAreSeen : Prop :=
  ∀ (s : State) (rest : List HostAction), s.wf = true →
    (∀ (k j : Nat) (v : Word), s.inbox = .writeWord k v :: .readWord j :: rest → k < s.ws.len → j < s.ws.len →
      v.toNat < 2 ^ s.cfg.W →
      ∃ t, Host.Core.run Sys2Proof.core 2 s = .next t ∧ t.inbox = rest ∧
        t.observed = s.observed ++ [.word j (if j = k then v else s.ws.get j)]) ∧
    (∀ (a d : Nat) (v : Byte), s.inbox = .writeByte a v :: .readByte d :: rest → a < s.buf.len → d < s.buf.len →
      ∃ t, Host.Core.run Sys2Proof.core 2 s = .next t ∧ t.inbox = rest ∧
        t.observed = s.observed ++ [.byte d (if d = a then v else s.buf.get d)])

/-- 10 R21: a memory the host has not attached is the empty memory and needs no separate treatment. -/
def Obligations.UnattachedMemories : Prop :=
  ∀ s : State,
    (s.ws.len = 0 → ∀ (b : BitVec 7) (n : BitVec 32) (index value : Word), 1 ≤ b.toNat → b.toNat ≤ s.cfg.W →
      (1 ≤ n.toNat → exec (.bfGet b n index) s = .next (s.raise .illegalCommand) ∧
        exec (.bfSet b n index value) s = .next (s.raise .illegalCommand)) ∧
      (n.toNat = 0 → exec (.bfGet b n index) s = .next (s.raise .indexOutOfRange) ∧
        exec (.bfSet b n index value) s = .next (s.raise .indexOutOfRange))) ∧
    (s.buf.len = 0 → ∀ (hs c cs : Word) (p : Bytes), 1 ≤ cs.toNat →
      (p.len = hs.toNat + c.toNat * cs.toNat → c.toNat < 2 ^ (8 * s.cfg.countBytes) →
        exec (.ovWrite hs c cs p) s = .next (s.raise .bufferTooShort) ∨
        exec (.ovWrite hs c cs p) s = .next (s.raise .sizeOverflow)) ∧
      (exec (.ovRead hs cs) s = .next (s.raise .bufferTooShort) ∨
        exec (.ovRead hs cs) s = .next (s.raise .sizeOverflow)))

/-- 60 R186, 70 R213: a run of any packets, legal or not, ends after as many steps as there are packets, with one more
response for each and none of the host's moves left. -/
def Obligations.RunAnswersEveryPacket : Prop :=
  ∀ (pkts : List Bytes) (s : State), (∀ p ∈ pkts, p.wf = true ∧ 32 ≤ p.len) → s.inbox = pkts.map .issue →
    ∃ (t : State) (rs : List Response), Host.Core.run Sys2Proof.core pkts.length s = .next t ∧
      t.responses = s.responses ++ rs ∧ rs.length = pkts.length ∧ t.inbox = [] ∧ t.cfg = s.cfg ∧
      t.ws.len = s.ws.len ∧ t.buf.len = s.buf.len
end

