-- ==== Sys2Proof/Laws/Memory.lean ====
section
/-! SUPPORT. The laws of a finite sequence of cells: what each operation reads back as, that each keeps the canonical
form, and that two canonical sequences with the same cells are the same data. -/

namespace Sys2Proof

variable {w : Nat}

@[simp] theorem Memory.empty_len : (Memory.empty : Memory w).len = 0 := rfl
@[simp] theorem Memory.set_len (m : Memory w) (k : Nat) (v : BitVec w) : (m.set k v).len = m.len := rfl
@[simp] theorem Memory.slice_len (m : Memory w) (a n : Nat) : (m.slice a n).len = n := rfl
@[simp] theorem Memory.append_len (s t : Memory w) : (s.append t).len = s.len + t.len := rfl
@[simp] theorem Memory.overwrite_len (m : Memory w) (a : Nat) (s : Memory w) : (m.overwrite a s).len = m.len := rfl
@[simp] theorem Memory.ofList_len (l : List (BitVec w)) : (Memory.ofList l).len = l.length := rfl
@[simp] theorem Memory.empty_get (k : Nat) : (Memory.empty : Memory w).get k = 0 := rfl

@[simp] theorem cellsWf_nil (hi lo : Nat) : cellsWf hi lo ([] : List (Nat × BitVec w)) = true := rfl

theorem cellsWf_cons {hi lo a : Nat} {v : BitVec w} {rest : List (Nat × BitVec w)} :
    cellsWf hi lo ((a, v) :: rest) = true ↔ lo ≤ a ∧ a < hi ∧ v ≠ 0 ∧ cellsWf hi (a + 1) rest = true := by
  simp [cellsWf, and_assoc]

/-- The canonical form may be read with a lower floor and a higher ceiling. -/
theorem cellsWf_mono {hi lo hi' lo' : Nat} {l : List (Nat × BitVec w)} (h : cellsWf hi lo l = true)
    (hlo : lo' ≤ lo) (hhi : hi ≤ hi') : cellsWf hi' lo' l = true := by
  induction l generalizing lo lo' with
  | nil => rfl
  | cons c rest ih =>
    obtain ⟨a, v⟩ := c
    rw [cellsWf_cons] at h ⊢
    exact ⟨by omega, by omega, h.2.2.1, ih h.2.2.2 le_rfl⟩

theorem cellsGet_below {hi lo : Nat} {l : List (Nat × BitVec w)} (h : cellsWf hi lo l = true) {k : Nat}
    (hk : k < lo) : cellsGet l k = 0 := by
  induction l generalizing lo with
  | nil => rfl
  | cons c rest ih =>
    obtain ⟨a, v⟩ := c
    rw [cellsWf_cons] at h
    rw [cellsGet, if_neg (by omega)]
    exact ih h.2.2.2 (by omega)

theorem cellsGet_above {hi lo : Nat} {l : List (Nat × BitVec w)} (h : cellsWf hi lo l = true) {k : Nat}
    (hk : hi ≤ k) : cellsGet l k = 0 := by
  induction l generalizing lo with
  | nil => rfl
  | cons c rest ih =>
    obtain ⟨a, v⟩ := c
    rw [cellsWf_cons] at h
    rw [cellsGet, if_neg (by omega)]
    exact ih h.2.2.2

theorem cellsGet_cellsCons {hi a : Nat} {l : List (Nat × BitVec w)} (h : cellsWf hi (a + 1) l = true)
    (v : BitVec w) (k : Nat) : cellsGet (cellsCons a v l) k = if k = a then v else cellsGet l k := by
  unfold cellsCons
  by_cases hv : v = 0
  · by_cases hk : k = a
    · simp [hv, hk, cellsGet_below h (Nat.lt_succ_self a)]
    · simp [hv, hk]
  · rw [if_neg hv, cellsGet]
    exact if_congr eq_comm rfl rfl

theorem cellsWf_cellsCons {hi lo a : Nat} {v : BitVec w} {l : List (Nat × BitVec w)}
    (h : cellsWf hi (a + 1) l = true) (hlo : lo ≤ a) (hhi : a < hi) : cellsWf hi lo (cellsCons a v l) = true := by
  unfold cellsCons
  split
  · exact cellsWf_mono h (by omega) le_rfl
  · exact cellsWf_cons.2 ⟨hlo, hhi, ‹_›, h⟩

theorem cellsGet_cellsSet {hi lo : Nat} {l : List (Nat × BitVec w)} (h : cellsWf hi lo l = true) (k j : Nat)
    (v : BitVec w) : cellsGet (cellsSet l k v) j = if j = k then v else cellsGet l j := by
  induction l generalizing lo with
  | nil => exact cellsGet_cellsCons (cellsWf_nil 0 _) v j
  | cons c rest ih =>
    obtain ⟨a, x⟩ := c
    rw [cellsWf_cons] at h
    obtain ⟨h1, h2, h3, h4⟩ := h
    unfold cellsSet
    split
    · exact cellsGet_cellsCons (hi := hi) (cellsWf_cons.2 ⟨by omega, h2, h3, h4⟩) v j
    split
    · rename_i hka
      subst hka
      rw [cellsGet_cellsCons h4]
      by_cases hj : j = k
      · simp [hj]
      · rw [if_neg hj, if_neg hj, cellsGet, if_neg (Ne.symm hj)]
    · rw [cellsGet, ih h4, cellsGet]
      split <;> split <;> first | rfl | omega

theorem cellsWf_cellsSet {hi lo : Nat} {l : List (Nat × BitVec w)} (h : cellsWf hi lo l = true) {k : Nat}
    (v : BitVec w) (hk : k < hi) (hlo : lo ≤ k) : cellsWf hi lo (cellsSet l k v) = true := by
  induction l generalizing lo with
  | nil => exact cellsWf_cellsCons rfl hlo hk
  | cons c rest ih =>
    obtain ⟨a, x⟩ := c
    rw [cellsWf_cons] at h
    obtain ⟨h1, h2, h3, h4⟩ := h
    unfold cellsSet
    split
    · exact cellsWf_cellsCons (cellsWf_cons.2 ⟨by omega, h2, h3, h4⟩) hlo hk
    split
    · rename_i hka
      subst hka
      exact cellsWf_cellsCons h4 hlo hk
    · exact cellsWf_cons.2 ⟨h1, h2, h3, ih h4 (by omega)⟩

theorem cellsGet_cellsBelow (n : Nat) (l : List (Nat × BitVec w)) (k : Nat) :
    cellsGet (cellsBelow n l) k = if k < n then cellsGet l k else 0 := by
  induction l with
  | nil => simp [cellsBelow, cellsGet]
  | cons c rest ih =>
    obtain ⟨a, v⟩ := c
    unfold cellsBelow
    split <;> simp only [cellsGet, ih] <;> split_ifs <;> first | rfl | omega

theorem cellsGet_cellsFrom (n : Nat) (l : List (Nat × BitVec w)) (k : Nat) :
    cellsGet (cellsFrom n l) k = if n ≤ k then cellsGet l k else 0 := by
  induction l with
  | nil => simp [cellsFrom, cellsGet]
  | cons c rest ih =>
    obtain ⟨a, v⟩ := c
    unfold cellsFrom
    split <;> simp only [cellsGet, ih] <;> split_ifs <;> first | rfl | omega

theorem cellsGet_cellsUp (n : Nat) (l : List (Nat × BitVec w)) (k : Nat) :
    cellsGet (cellsUp n l) k = if n ≤ k then cellsGet l (k - n) else 0 := by
  induction l with
  | nil => simp [cellsUp, cellsGet]
  | cons c rest ih =>
    obtain ⟨a, v⟩ := c
    simp only [cellsUp, cellsGet, ih]
    split <;> split <;> first | rfl | (split <;> first | rfl | omega) | omega

theorem cellsWf_cellsBelow {hi lo n : Nat} {l : List (Nat × BitVec w)} (h : cellsWf hi lo l = true) :
    cellsWf (min n hi) lo (cellsBelow n l) = true := by
  induction l generalizing lo with
  | nil => rfl
  | cons c rest ih =>
    obtain ⟨a, v⟩ := c
    rw [cellsWf_cons] at h
    unfold cellsBelow
    split
    · exact cellsWf_cons.2 ⟨h.1, by omega, h.2.2.1, ih h.2.2.2⟩
    · exact cellsWf_mono (ih h.2.2.2) (by omega) le_rfl

theorem cellsWf_cellsFrom {hi lo n : Nat} {l : List (Nat × BitVec w)} (h : cellsWf hi lo l = true) :
    cellsWf hi (max n lo) (cellsFrom n l) = true := by
  induction l generalizing lo with
  | nil => rfl
  | cons c rest ih =>
    obtain ⟨a, v⟩ := c
    rw [cellsWf_cons] at h
    unfold cellsFrom
    split
    · exact cellsWf_cons.2 ⟨by omega, h.2.1, h.2.2.1, cellsWf_mono (ih h.2.2.2) (by omega) le_rfl⟩
    · exact cellsWf_mono (ih h.2.2.2) (by omega) le_rfl

theorem cellsWf_cellsUp {hi lo n : Nat} {l : List (Nat × BitVec w)} (h : cellsWf hi lo l = true) :
    cellsWf (hi + n) (lo + n) (cellsUp n l) = true := by
  induction l generalizing lo with
  | nil => rfl
  | cons c rest ih =>
    obtain ⟨a, v⟩ := c
    rw [cellsWf_cons] at h
    exact cellsWf_cons.2 ⟨by omega, by omega, h.2.2.1, cellsWf_mono (ih h.2.2.2) (by omega) le_rfl⟩

theorem cellsWf_cellsDown {hi lo n : Nat} {l : List (Nat × BitVec w)} (h : cellsWf hi lo l = true) (hn : n ≤ lo) :
    cellsWf (hi - n) (lo - n) (cellsDown n l) = true := by
  induction l generalizing lo with
  | nil => rfl
  | cons c rest ih =>
    obtain ⟨a, v⟩ := c
    rw [cellsWf_cons] at h
    exact cellsWf_cons.2 ⟨by omega, by omega, h.2.2.1, cellsWf_mono (ih h.2.2.2 (by omega)) (by omega) le_rfl⟩

theorem cellsGet_cellsDown {hi lo n : Nat} {l : List (Nat × BitVec w)} (h : cellsWf hi lo l = true) (hn : n ≤ lo)
    (k : Nat) : cellsGet (cellsDown n l) k = cellsGet l (n + k) := by
  induction l generalizing lo with
  | nil => rfl
  | cons c rest ih =>
    obtain ⟨a, v⟩ := c
    rw [cellsWf_cons] at h
    simp only [cellsDown, cellsGet, ih h.2.2.2 (by omega)]
    split <;> split <;> first | rfl | omega

theorem cellsWf_append {mid hi lo : Nat} {s t : List (Nat × BitVec w)} (hs : cellsWf mid lo s = true)
    (ht : cellsWf hi mid t = true) (hmid : mid ≤ hi) (hlo : lo ≤ mid) : cellsWf hi lo (s ++ t) = true := by
  induction s generalizing lo with
  | nil => exact cellsWf_mono ht hlo le_rfl
  | cons c rest ih =>
    obtain ⟨a, v⟩ := c
    rw [cellsWf_cons] at hs
    exact cellsWf_cons.2 ⟨hs.1, by omega, hs.2.2.1, ih hs.2.2.2 (by omega)⟩

/-- In two runs of cells set end to end, an address is looked up in the run it belongs to. -/
theorem cellsGet_append {mid hi lo : Nat} {s t : List (Nat × BitVec w)} (hs : cellsWf mid lo s = true)
    (ht : cellsWf hi mid t = true) (k : Nat) : cellsGet (s ++ t) k = if k < mid then cellsGet s k else cellsGet t k
        := by
  induction s generalizing lo with
  | nil =>
    split
    · exact cellsGet_below ht ‹_›
    · rfl
  | cons c rest ih =>
    obtain ⟨a, v⟩ := c
    rw [cellsWf_cons] at hs
    simp only [List.cons_append, cellsGet, ih hs.2.2.2]
    split <;> split <;> first | rfl | omega

theorem cellsWf_cellsOfList (k : Nat) (l : List (BitVec w)) : cellsWf (k + l.length) k (cellsOfList k l) = true := by
  induction l generalizing k with
  | nil => rfl
  | cons v rest ih =>
    have h := ih (k + 1)
    rw [show k + 1 + rest.length = k + (v :: rest).length by simp; omega] at h
    exact cellsWf_cellsCons h le_rfl (by simp)

theorem cellsGet_cellsOfList (k j : Nat) (l : List (BitVec w)) :
    cellsGet (cellsOfList k l) (k + j) = l.getD j 0 := by
  induction l generalizing k j with
  | nil => simp [cellsOfList, cellsGet]
  | cons v rest ih =>
    rw [cellsOfList, cellsGet_cellsCons (cellsWf_cellsOfList (k + 1) rest)]
    cases j with
    | zero => simp
    | succ j => rw [if_neg (by omega), show k + (j + 1) = k + 1 + j by omega, ih]; simp

/-- Two canonical cell lists that read the same everywhere are the same list. -/
theorem cells_ext {hi lo : Nat} {l l' : List (Nat × BitVec w)} (h : cellsWf hi lo l = true)
    (h' : cellsWf hi lo l' = true) (hg : ∀ k, lo ≤ k → k < hi → cellsGet l k = cellsGet l' k) : l = l' := by
  induction l generalizing lo l' with
  | nil =>
    cases l' with
    | nil => rfl
    | cons c rest =>
      obtain ⟨a, v⟩ := c
      rw [cellsWf_cons] at h'
      have := hg a h'.1 h'.2.1
      simp only [cellsGet, if_true] at this
      exact absurd this.symm h'.2.2.1
  | cons c rest ih =>
    obtain ⟨a, v⟩ := c
    rw [cellsWf_cons] at h
    cases l' with
    | nil =>
      have := hg a h.1 h.2.1
      simp only [cellsGet, if_true] at this
      exact absurd this h.2.2.1
    | cons c' rest' =>
      obtain ⟨a', v'⟩ := c'
      rw [cellsWf_cons] at h'
      have ha : a = a' := by
        rcases lt_trichotomy a a' with hlt | heq | hgt
        · have := hg a h.1 h.2.1
          rw [cellsGet, if_pos rfl, cellsGet, if_neg (by omega), cellsGet_below h'.2.2.2 (by omega)] at this
          exact absurd this h.2.2.1
        · exact heq
        · have := hg a' h'.1 h'.2.1
          rw [cellsGet, if_neg (by omega), cellsGet_below h.2.2.2 (by omega), cellsGet, if_pos rfl] at this
          exact absurd this.symm h'.2.2.1
      subst ha
      have hv : v = v' := by simpa [cellsGet] using hg a h.1 h.2.1
      subst hv
      rw [ih h.2.2.2 h'.2.2.2 fun k hk hk' => by
        have := hg k (by omega) hk'
        simpa only [cellsGet, if_neg (show a ≠ k by omega)] using this]

/-- The empty sequence is canonical. -/
@[simp] theorem Memory.empty_wf : (Memory.empty : Memory w).wf = true := rfl

/-- An address at or above the length reads as zero. -/
theorem Memory.get_of_len_le {m : Memory w} (h : m.wf = true) {k : Nat} (hk : m.len ≤ k) : m.get k = 0 :=
  cellsGet_above h hk

theorem Memory.ext_get {m m' : Memory w} (h : m.wf = true) (h' : m'.wf = true) (hl : m.len = m'.len)
    (hg : ∀ k, k < m.len → m.get k = m'.get k) : m = m' := by
  obtain ⟨n, l⟩ := m
  obtain ⟨n', l'⟩ := m'
  obtain rfl : n = n' := hl
  exact congrArg (Memory.mk n) (cells_ext h h' fun k _ hk => hg k hk)

theorem Memory.get_set {m : Memory w} (h : m.wf = true) (k j : Nat) (v : BitVec w) :
    (m.set k v).get j = if j = k then v else m.get j := cellsGet_cellsSet h k j v

theorem Memory.set_wf {m : Memory w} (h : m.wf = true) {k : Nat} (v : BitVec w) (hk : k < m.len) :
    (m.set k v).wf = true := cellsWf_cellsSet h v hk (Nat.zero_le k)

theorem Memory.slice_wf {m : Memory w} (h : m.wf = true) (a n : Nat) : (m.slice a n).wf = true := by
  have h1 := cellsWf_cellsDown (n := a) (cellsWf_cellsFrom (n := a) (cellsWf_cellsBelow (n := a + n) h)) (by omega)
  exact cellsWf_mono h1 (by omega) (by simp only [Memory.slice_len]; omega)

theorem Memory.get_slice {m : Memory w} (h : m.wf = true) (a n k : Nat) :
    (m.slice a n).get k = if k < n then m.get (a + k) else 0 := by
  have h1 := cellsWf_cellsFrom (n := a) (cellsWf_cellsBelow (n := a + n) h)
  show cellsGet (cellsDown a (cellsFrom a (cellsBelow (a + n) m.cells))) k = _
  rw [cellsGet_cellsDown h1 (by omega), cellsGet_cellsFrom, cellsGet_cellsBelow, if_pos (by omega)]
  by_cases hk : k < n
  · rw [if_pos hk, if_pos (by omega)]; rfl
  · rw [if_neg hk, if_neg (by omega)]

theorem Memory.append_wf {s t : Memory w} (hs : s.wf = true) (ht : t.wf = true) : (s.append t).wf = true := by
  have h1 : cellsWf (s.len + t.len) s.len (cellsUp s.len t.cells) = true :=
    cellsWf_mono (cellsWf_cellsUp (n := s.len) ht) (by omega) (by omega)
  exact cellsWf_append hs h1 (Nat.le_add_right _ _) (Nat.zero_le _)

theorem Memory.get_append {s t : Memory w} (hs : s.wf = true) (ht : t.wf = true) (k : Nat) :
    (s.append t).get k = if k < s.len then s.get k else t.get (k - s.len) := by
  have h1 : cellsWf (s.len + t.len) s.len (cellsUp s.len t.cells) = true :=
    cellsWf_mono (cellsWf_cellsUp (n := s.len) ht) (by omega) (by omega)
  show cellsGet (s.cells ++ cellsUp s.len t.cells) k = _
  rw [cellsGet_append hs h1, cellsGet_cellsUp]
  by_cases hk : k < s.len
  · rw [if_pos hk, if_pos hk]; rfl
  · rw [if_neg hk, if_neg hk, if_pos (by omega)]; rfl

/-- The second half of an overwritten sequence: the new cells, then the old ones above them. -/
theorem cellsWf_overwrite_upper {m s : Memory w} (h : m.wf = true) (hs : s.wf = true) {a : Nat}
    (ha : a + s.len ≤ m.len) :
    cellsWf m.len a (cellsUp a s.cells ++ cellsFrom (a + s.len) m.cells) = true := by
  have h1 : cellsWf (a + s.len) a (cellsUp a s.cells) = true :=
    cellsWf_mono (cellsWf_cellsUp (n := a) hs) (by omega) (by omega)
  have h2 : cellsWf m.len (a + s.len) (cellsFrom (a + s.len) m.cells) = true :=
    cellsWf_mono (cellsWf_cellsFrom (n := a + s.len) h) (by omega) le_rfl
  exact cellsWf_append h1 h2 ha (by omega)

theorem Memory.overwrite_wf {m s : Memory w} (h : m.wf = true) (hs : s.wf = true) {a : Nat}
    (ha : a + s.len ≤ m.len) : (m.overwrite a s).wf = true := by
  have h0 : cellsWf a 0 (cellsBelow a m.cells) = true := cellsWf_mono (cellsWf_cellsBelow h) le_rfl (by omega)
  exact cellsWf_append h0 (cellsWf_overwrite_upper h hs ha) (Nat.le_trans (Nat.le_add_right _ _) ha) (Nat.zero_le _)

theorem Memory.get_overwrite {m s : Memory w} (h : m.wf = true) (hs : s.wf = true) {a : Nat}
    (ha : a + s.len ≤ m.len) (k : Nat) :
    (m.overwrite a s).get k = if a ≤ k ∧ k < a + s.len then s.get (k - a) else m.get k := by
  have h0 : cellsWf a 0 (cellsBelow a m.cells) = true := cellsWf_mono (cellsWf_cellsBelow h) le_rfl (by omega)
  have h1 : cellsWf (a + s.len) a (cellsUp a s.cells) = true :=
    cellsWf_mono (cellsWf_cellsUp (n := a) hs) (by omega) (by omega)
  have h2 : cellsWf m.len (a + s.len) (cellsFrom (a + s.len) m.cells) = true :=
    cellsWf_mono (cellsWf_cellsFrom (n := a + s.len) h) (by omega) le_rfl
  show cellsGet (cellsBelow a m.cells ++ (cellsUp a s.cells ++ cellsFrom (a + s.len) m.cells)) k = _
  rw [cellsGet_append h0 (cellsWf_overwrite_upper h hs ha), cellsGet_append h1 h2, cellsGet_cellsBelow,
    cellsGet_cellsUp, cellsGet_cellsFrom]
  simp only [Memory.get]
  split_ifs <;> first | rfl | omega

theorem Memory.ofList_wf (l : List (BitVec w)) : (Memory.ofList l).wf = true := by
  have h := cellsWf_cellsOfList 0 l
  rwa [Nat.zero_add] at h

theorem Memory.get_ofList (l : List (BitVec w)) (k : Nat) : (Memory.ofList l).get k = l.getD k 0 := by
  have h := cellsGet_cellsOfList 0 k l
  rwa [Nat.zero_add] at h

@[simp] theorem Memory.prefixList_length (m : Memory w) (n : Nat) : (m.prefixList n).length = n := by
  simp [Memory.prefixList]

/-- Reading a list back from its sequence gives the list. -/
theorem Memory.prefixList_ofList (l : List (BitVec w)) : (Memory.ofList l).prefixList l.length = l := by
  apply List.ext_getElem
  · simp
  · intro i h1 h2
    simp only [Memory.prefixList, List.getElem_map, List.getElem_range]
    rw [Memory.get_ofList, List.getD_eq_getElem _ _ h2]

theorem Memory.prefixList_append {s t : Memory w} (hs : s.wf = true) (ht : t.wf = true) :
    (s.append t).prefixList s.len = s.prefixList s.len := by
  apply List.map_congr_left
  intro k hk
  rw [Memory.get_append hs ht, if_pos (List.mem_range.1 hk)]

theorem Memory.slice_append_right {s t : Memory w} (hs : s.wf = true) (ht : t.wf = true) :
    (s.append t).slice s.len t.len = t := by
  refine Memory.ext_get (Memory.slice_wf (Memory.append_wf hs ht) _ _) ht rfl fun k hk => ?_
  rw [Memory.slice_len] at hk
  rw [Memory.get_slice (Memory.append_wf hs ht), if_pos hk, Memory.get_append hs ht, if_neg (by omega),
    Nat.add_sub_cancel_left]

theorem Memory.slice_append_left {s t : Memory w} (hs : s.wf = true) (ht : t.wf = true) :
    (s.append t).slice 0 s.len = s := by
  refine Memory.ext_get (Memory.slice_wf (Memory.append_wf hs ht) _ _) hs rfl fun k hk => ?_
  rw [Memory.slice_len] at hk
  rw [Memory.get_slice (Memory.append_wf hs ht), if_pos hk, Memory.get_append hs ht, Nat.zero_add, if_pos hk]

/-- Cutting a sequence in two and joining the parts gives it back. -/
theorem Memory.append_slices {m : Memory w} (h : m.wf = true) {a b : Nat} (hl : m.len = a + b) :
    (m.slice 0 a).append (m.slice a b) = m := by
  have h1 := Memory.slice_wf h 0 a
  have h2 := Memory.slice_wf h a b
  refine Memory.ext_get (Memory.append_wf h1 h2) h hl.symm fun k hk => ?_
  have hk' : k < a + b := hk
  rw [Memory.get_append h1 h2, Memory.get_slice h, Memory.get_slice h]
  rw [Memory.slice_len, Nat.zero_add]
  by_cases h3 : k < a
  · rw [if_pos h3, if_pos h3]
  · rw [if_neg h3, if_pos (by omega), Nat.add_sub_cancel' (by omega)]

theorem cells_narrow_iff {hi lo : Nat} {l : List (Nat × BitVec w)} (h : cellsWf hi lo l = true) (n : Nat) :
    l.all (fun c => decide (c.2.toNat < 2 ^ n)) = true ↔ ∀ k, (cellsGet l k).toNat < 2 ^ n := by
  induction l generalizing lo with
  | nil => simp [cellsGet]
  | cons c rest ih =>
    obtain ⟨a, v⟩ := c
    rw [cellsWf_cons] at h
    have ih := ih h.2.2.2
    rw [List.all_cons, Bool.and_eq_true, ih]
    constructor
    · rintro ⟨hv, hr⟩ k
      rw [cellsGet]
      split
      · exact of_decide_eq_true hv
      · exact hr k
    · intro hk
      constructor
      · have := hk a
        rw [cellsGet, if_pos rfl] at this
        exact decide_eq_true this
      · intro k
        by_cases hka : a = k
        · subst hka
          rw [cellsGet_below h.2.2.2 (Nat.lt_succ_self a)]
          exact Nat.two_pow_pos n
        · have := hk k
          rwa [cellsGet, if_neg hka] at this

/-- Every cell of a narrow sequence is narrow. -/
theorem Memory.narrow_iff {m : Memory w} (h : m.wf = true) (n : Nat) :
    m.narrow n = true ↔ ∀ k, (m.get k).toNat < 2 ^ n := cells_narrow_iff h n

end Sys2Proof
end

