-- ==== Sys2Proof/Laws/Operands.lean ====
section
/-! SUPPORT. The laws of what commands compute from their operands: bits of masks and of merged words, bounds of a
sample's position, the count field, sizes, timestamp fields. -/

namespace Sys2Proof.Machine

/-- W is 32 or 64. -/
theorem W_cases (c : Config) : c.W = 32 ∨ c.W = 64 := by
  unfold Config.W
  cases c.wordSize
  · exact .inl rfl
  · exact .inr rfl

theorem W_pos (c : Config) : 0 < c.W := by rcases W_cases c with h | h <;> omega
theorem W_le (c : Config) : c.W ≤ 64 := by rcases W_cases c with h | h <;> omega

theorem lenBits_le (c : Config) : c.lenBits.bits ≤ 64 := by
  cases c.lenBits <;> decide

theorem countBytes_pos (c : Config) : 1 ≤ c.countBytes := Nat.le_add_left 1 _
theorem countBytes_le (c : Config) : c.countBytes ≤ 8 := by
  have := c.countBytesPred.isLt
  unfold Config.countBytes
  omega

/-- Bit `i` of `mask n`. -/
@[simp] theorem getLsbD_mask (n i : Nat) : (mask n).getLsbD i = (decide (i < 64) && decide (i < n)) := by
  simp [mask, BitVec.getLsbD_ofNat, Nat.testBit_two_pow_sub_one]

/-- The first part of a sample, bit by bit. -/
theorem getLsbD_lowPart (p : Position) (w0 : Word) (t : Nat) :
    (lowPart p w0).getLsbD t = (decide (t < p.firstBits) && w0.getLsbD (p.bitOffset + t)) := by
  unfold lowPart
  rw [BitVec.getLsbD_and, BitVec.getLsbD_ushiftRight, getLsbD_mask]
  by_cases ht : t < 64
  · simp [ht, Bool.and_comm]
  · have h : w0.getLsbD (p.bitOffset + t) = false := BitVec.getLsbD_of_ge _ _ (by omega)
    simp [h]

/-- A sample read from two words, bit by bit. -/
theorem getLsbD_joinParts (B : Nat) (p : Position) (w0 w1 : Word) (hB : p.firstBits + p.remainderBits = B)
    (h64 : B ≤ 64) (t : Nat) :
    (joinParts B p w0 w1).getLsbD t =
      (decide (t < B) && if t < p.firstBits then w0.getLsbD (p.bitOffset + t) else w1.getLsbD (t - p.firstBits)) := by
  unfold joinParts
  simp only [BitVec.getLsbD_and, BitVec.getLsbD_or, getLsbD_lowPart, BitVec.getLsbD_shiftLeft, getLsbD_mask]
  by_cases h1 : t < p.firstBits
  · simp [h1, show t < 64 by omega, show t < B by omega]
  · by_cases h2 : t < B
    · simp [h1, h2, show t < 64 by omega, show t - p.firstBits < 64 by omega,
        show t - p.firstBits < p.remainderBits by omega]
    · simp [h1, h2]

/-- The first word of a stored sample, bit by bit. -/
theorem getLsbD_mergeFirst (W : Nat) (p : Position) (w0 value : Word) (hW : W ≤ 64)
    (h : p.bitOffset + p.firstBits ≤ W) (j : Nat) :
    (mergeFirst W p w0 value).getLsbD j =
      (decide (j < W) && if p.bitOffset ≤ j ∧ j < p.bitOffset + p.firstBits then value.getLsbD (j - p.bitOffset)
        else w0.getLsbD j) := by
  unfold mergeFirst
  simp only [BitVec.getLsbD_and, BitVec.getLsbD_or, BitVec.getLsbD_not, BitVec.getLsbD_shiftLeft, getLsbD_mask]
  by_cases hj : j < W
  · by_cases h1 : p.bitOffset ≤ j
    · by_cases h2 : j < p.bitOffset + p.firstBits
      · simp [hj, h1, h2, show j < 64 by omega, show ¬ j < p.bitOffset by omega,
          show j - p.bitOffset < p.firstBits by omega, show j - p.bitOffset < 64 by omega]
      · simp [hj, h2, show j < 64 by omega, show ¬ j < p.bitOffset by omega,
          show ¬ j - p.bitOffset < p.firstBits by omega]
    · simp [hj, h1, show j < 64 by omega, show j < p.bitOffset by omega]
  · by_cases h64 : j < 64
    · simp [hj, h64, show ¬ j < p.bitOffset by omega, show ¬ j - p.bitOffset < p.firstBits by omega]
    · simp [hj, h64]

/-- The second word of a stored sample, bit by bit. -/
theorem getLsbD_mergeSecond (W : Nat) (p : Position) (w1 value : Word) (hW : W ≤ 64) (hr : p.remainderBits ≤ W)
    (hv : value.toNat < 2 ^ (p.firstBits + p.remainderBits)) (j : Nat) :
    (mergeSecond W p w1 value).getLsbD j =
      (decide (j < W) && if j < p.remainderBits then value.getLsbD (p.firstBits + j) else w1.getLsbD j) := by
  have hbit : ∀ i, p.firstBits + p.remainderBits ≤ i → value.getLsbD i = false := fun i hi => by
    rw [BitVec.getLsbD, Nat.testBit_lt_two_pow (lt_of_lt_of_le hv (Nat.pow_le_pow_right (by omega) hi))]
  unfold mergeSecond
  simp only [BitVec.getLsbD_and, BitVec.getLsbD_or, BitVec.getLsbD_not, BitVec.getLsbD_ushiftRight, getLsbD_mask]
  by_cases hj : j < p.remainderBits
  · simp [hj, show j < 64 by omega, show j < W by omega]
  · rw [hbit (p.firstBits + j) (by omega)]
    by_cases h64 : j < 64
    · by_cases hjW : j < W
      · simp [hj, h64, hjW]
      · simp [hj, hjW]
    · have h0 : w1.getLsbD j = false := BitVec.getLsbD_of_ge _ _ (by omega)
      simp [hj, h0]

/-- A word whose bits at and above `n` are clear is below `2^n`. -/
theorem toNat_lt_of_getLsbD {w n : Nat} (v : BitVec w) (h : ∀ i, n ≤ i → v.getLsbD i = false) : v.toNat < 2 ^ n :=
  Nat.lt_pow_two_of_testBit _ fun i hi => h i hi

/-- The bounds of a position (41 R100): offset below W, at least one bit in the first word, B bits in all. -/
theorem samplePosition_bounds {W B index : Nat} (hW : 0 < W) (hB : 1 ≤ B) :
    (samplePosition W B index).bitOffset < W ∧
    1 ≤ (samplePosition W B index).firstBits ∧
    (samplePosition W B index).firstBits ≤ B ∧
    (samplePosition W B index).bitOffset + (samplePosition W B index).firstBits ≤ W ∧
    (samplePosition W B index).firstBits + (samplePosition W B index).remainderBits = B ∧
    W * (samplePosition W B index).wordIndex + (samplePosition W B index).bitOffset = B * index ∧
    (0 < (samplePosition W B index).remainderBits →
      (samplePosition W B index).bitOffset + (samplePosition W B index).firstBits = W) := by
  have h1 : B * index % W < W := Nat.mod_lt _ hW
  have h2 : W * (B * index / W) + B * index % W = B * index := Nat.div_add_mod _ _
  simp only [samplePosition]
  generalize B * index % W = off at *
  generalize B * index / W = wi at *
  refine ⟨h1, ?_, ?_, ?_, ?_, h2, ?_⟩ <;> omega

/-- A sample of a legal descriptor lies inside WS (41 R101). -/
theorem samplePosition_inside {W B N M index : Nat} (hW : 0 < W) (hB : 1 ≤ B) (hNB : N * B ≤ W * M)
    (hi : index < N) :
    (samplePosition W B index).wordIndex < M ∧
    (0 < (samplePosition W B index).remainderBits → (samplePosition W B index).wordIndex + 1 < M) := by
  obtain ⟨h1, h2, h3, h4, h5, h6, h7⟩ := samplePosition_bounds (index := index) hW hB
  have h8 : B * index + B ≤ W * M := by
    calc B * index + B = (index + 1) * B := by ring
      _ ≤ N * B := Nat.mul_le_mul_right _ hi
      _ ≤ W * M := hNB
  generalize samplePosition W B index = p at *
  refine ⟨?_, fun hr => ?_⟩
  · by_contra hc
    have := Nat.mul_le_mul_left W (Nat.le_of_not_lt hc)
    omega
  · by_contra hc
    have h9 := Nat.mul_le_mul_left W (Nat.le_of_not_lt hc)
    have h10 : W * (p.wordIndex + 1) = W * p.wordIndex + W := by ring
    have := h7 hr
    omega

@[simp] theorem natToBytes_length (n v : Nat) : (natToBytes n v).length = n := by
  induction n generalizing v with
  | zero => rfl
  | succ n ih => simp [natToBytes, ih]

/-- The bytes of a number that fits them stand for the number. -/
theorem bytesToNat_natToBytes (n v : Nat) (h : v < 2 ^ (8 * n)) : bytesToNat (natToBytes n v) = v := by
  induction n generalizing v with
  | zero => simp_all [natToBytes, bytesToNat]
  | succ n ih =>
    have h1 : v / 256 < 2 ^ (8 * n) := by
      rw [Nat.div_lt_iff_lt_mul (by omega)]
      calc v < 2 ^ (8 * (n + 1)) := h
        _ = 2 ^ (8 * n) * 256 := by rw [Nat.mul_add, Nat.pow_add]
    rw [natToBytes, bytesToNat, ih _ h1, BitVec.toNat_ofNat]
    omega

theorem natToBytes_bytesToNat (l : List Byte) : natToBytes l.length (bytesToNat l) = l := by
  induction l with
  | nil => rfl
  | cons b rest ih =>
    have hb := b.isLt
    rw [List.length_cons, natToBytes, bytesToNat, show (b.toNat + 256 * bytesToNat rest) / 256 = bytesToNat rest by
        omega,
      ih]
    congr 1
    apply BitVec.eq_of_toNat_eq
    rw [BitVec.toNat_ofNat]
    omega

theorem bytesToNat_lt (l : List Byte) : bytesToNat l < 2 ^ (8 * l.length) := by
  induction l with
  | nil => simp [bytesToNat]
  | cons b rest ih =>
    have hb := b.isLt
    rw [bytesToNat, List.length_cons, Nat.mul_add, Nat.pow_add]
    omega

/-- Byte `j` of the bytes of a number (00 R15). -/
theorem getD_natToBytes (n v j : Nat) (hj : j < n) : (natToBytes n v).getD j 0 = BitVec.ofNat 8 (v / 2 ^ (8 * j))
    := by
  induction n generalizing v j with
  | zero => omega
  | succ n ih =>
    cases j with
    | zero => simp [natToBytes]
    | succ j =>
      rw [natToBytes, List.getD_cons_succ, ih _ _ (by omega), Nat.div_div_eq_div_mul]
      congr 2
      rw [Nat.mul_add, Nat.pow_add]
      ring

@[simp] theorem orderedBytes_length (o : ByteOrder) (n v : Nat) : (orderedBytes o n v).length = n := by
  cases o <;> simp [orderedBytes]

theorem orderedNat_orderedBytes (o : ByteOrder) (n v : Nat) (h : v < 2 ^ (8 * n)) :
    orderedNat o (orderedBytes o n v) = v := by
  cases o <;> simp [orderedBytes, orderedNat, bytesToNat_natToBytes n v h]

theorem orderedNat_lt (o : ByteOrder) (l : List Byte) : orderedNat o l < 2 ^ (8 * l.length) := by
  cases o
  · exact bytesToNat_lt l
  · have := bytesToNat_lt l.reverse
    rwa [List.length_reverse] at this

@[simp] theorem encCount_len (cfg : Config) (c : Nat) : (encCount cfg c).len = cfg.countBytes := by
  simp [encCount]

theorem encCount_wf (cfg : Config) (c : Nat) : (encCount cfg c).wf = true := Memory.ofList_wf _

/-- A stored count fits the count field. -/
theorem decCount_lt (cfg : Config) (s : Bytes) : decCount cfg s < 2 ^ (8 * cfg.countBytes) := by
  have := orderedNat_lt cfg.countOrder (s.prefixList cfg.countBytes)
  rwa [Memory.prefixList_length] at this

theorem decCount_lt_word (cfg : Config) (s : Bytes) : decCount cfg s < 2 ^ 64 :=
  lt_of_lt_of_le (decCount_lt cfg s) (Nat.pow_le_pow_right (by omega) (by have := countBytes_le cfg; omega))

/-- `checked_size` raises the overflow exactly when the whole size does not fit (43 R141). -/
theorem checkedSize_eq (cfg : Config) (hs c cs : Nat) :
    checkedSize cfg hs c cs =
      if recordSize cfg hs c cs < 2 ^ cfg.lenBits.bits then .ok (recordSize cfg hs c cs) else .error .sizeOverflow
          := by
  unfold checkedSize fits
  have : c * cs ≤ recordSize cfg hs c cs := by unfold recordSize; omega
  by_cases h : recordSize cfg hs c cs < 2 ^ cfg.lenBits.bits
  · simp [h, lt_of_le_of_lt this h]
  · simp [h]

end Sys2Proof.Machine
end

