-- ==== Sys2Proof/Laws/Encoding.lean ====
section
/-! SUPPORT. The laws of descriptors: each field of an assembled descriptor is what was put there, a packet's
descriptor and payload are what it was made of, and a masked descriptor is its row's match. -/

namespace Sys2Proof

/-- Bit `k` of an assembled descriptor, found in its quadword. -/
theorem getLsbD_quads (q3 q2 q1 q0 : Word) (k : Nat) :
    (quads q3 q2 q1 q0).getLsbD k =
      if k < 64 then q0.getLsbD k else if k < 128 then q1.getLsbD (k - 64)
      else if k < 192 then q2.getLsbD (k - 128) else q3.getLsbD (k - 192) := by
  unfold quads
  rw [BitVec.getLsbD_append, BitVec.getLsbD_append, BitVec.getLsbD_append]
  simp only [Nat.sub_sub, Nat.reduceAdd]
  split_ifs <;> first | omega | with_reducible rfl

/-- Bit `k` of a control quadword, found in its field. -/
theorem getLsbD_controlQuad (op : Opcode) (bw : BitVec 7) (var : BitVec 1) (ns : BitVec 32) (k : Nat) :
    (controlQuad op bw var ns).getLsbD k =
      if k < 8 then op.byte.getLsbD k else if k < 15 then bw.getLsbD (k - 8)
      else if k < 16 then var.getLsbD (k - 15) else if k < 32 then false else ns.getLsbD (k - 32) := by
  unfold controlQuad
  rw [BitVec.getLsbD_append, BitVec.getLsbD_append, BitVec.getLsbD_append, BitVec.getLsbD_append]
  split_ifs <;> first | omega | rfl | exact BitVec.getLsbD_zero

/-- Bit `k` of a field. -/
theorem getLsbD_field {n : Nat} (d : BitVec n) (start : Nat) {len k : Nat} (hk : k < len) :
    (d.extractLsb' start len).getLsbD k = d.getLsbD (start + k) := by
  rw [BitVec.getLsbD_extractLsb', decide_eq_true hk, Bool.true_and]

theorem fieldQ1_quads (q3 q2 q1 q0 : Word) : fieldQ1 (quads q3 q2 q1 q0) = q1 := by
  apply BitVec.eq_of_getLsbD_eq
  intro k hk
  rw [fieldQ1, getLsbD_field _ _ hk, getLsbD_quads, if_neg (by omega), if_pos (by omega), Nat.add_sub_cancel_left]

theorem fieldQ2_quads (q3 q2 q1 q0 : Word) : fieldQ2 (quads q3 q2 q1 q0) = q2 := by
  apply BitVec.eq_of_getLsbD_eq
  intro k hk
  rw [fieldQ2, getLsbD_field _ _ hk, getLsbD_quads, if_neg (by omega), if_neg (by omega), if_pos (by omega),
    Nat.add_sub_cancel_left]

theorem fieldQ3_quads (q3 q2 q1 q0 : Word) : fieldQ3 (quads q3 q2 q1 q0) = q3 := by
  apply BitVec.eq_of_getLsbD_eq
  intro k hk
  rw [fieldQ3, getLsbD_field _ _ hk, getLsbD_quads, if_neg (by omega), if_neg (by omega), if_neg (by omega),
    Nat.add_sub_cancel_left]

theorem fieldLow_quads (q3 q2 q0 : Word) (low high : Half) : fieldLow (quads q3 q2 (high ++ low) q0) = low := by
  apply BitVec.eq_of_getLsbD_eq
  intro k hk
  rw [fieldLow, getLsbD_field _ _ hk, getLsbD_quads, if_neg (by omega), if_pos (by omega), Nat.add_sub_cancel_left]
  exact (BitVec.getLsbD_append (x := high) (y := low)).trans (if_pos hk)

theorem fieldHigh_quads (q3 q2 q0 : Word) (low high : Half) : fieldHigh (quads q3 q2 (high ++ low) q0) = high := by
  apply BitVec.eq_of_getLsbD_eq
  intro k hk
  rw [fieldHigh, getLsbD_field _ _ hk, getLsbD_quads, if_neg (by omega), if_pos (by omega),
    show 96 + k - 64 = 32 + k by omega]
  refine (BitVec.getLsbD_append (x := high) (y := low)).trans ?_
  rw [if_neg (by omega), Nat.add_sub_cancel_left]

theorem fieldOP_quads (q3 q2 q1 : Word) (op : Opcode) (bw : BitVec 7) (var : BitVec 1) (ns : BitVec 32) :
    fieldOP (quads q3 q2 q1 (controlQuad op bw var ns)) = op.byte := by
  apply BitVec.eq_of_getLsbD_eq
  intro k hk
  rw [fieldOP, getLsbD_field _ _ hk, getLsbD_quads, if_pos (by omega), getLsbD_controlQuad, if_pos (by omega),
    Nat.zero_add]

theorem fieldBW_quads (q3 q2 q1 : Word) (op : Opcode) (bw : BitVec 7) (var : BitVec 1) (ns : BitVec 32) :
    fieldBW (quads q3 q2 q1 (controlQuad op bw var ns)) = bw := by
  apply BitVec.eq_of_getLsbD_eq
  intro k hk
  rw [fieldBW, getLsbD_field _ _ hk, getLsbD_quads, if_pos (by omega), getLsbD_controlQuad, if_neg (by omega),
    if_pos (by omega), Nat.add_sub_cancel_left]

theorem fieldNS_quads (q3 q2 q1 : Word) (op : Opcode) (bw : BitVec 7) (var : BitVec 1) (ns : BitVec 32) :
    fieldNS (quads q3 q2 q1 (controlQuad op bw var ns)) = ns := by
  apply BitVec.eq_of_getLsbD_eq
  intro k hk
  rw [fieldNS, getLsbD_field _ _ hk, getLsbD_quads, if_pos (by omega), getLsbD_controlQuad, if_neg (by omega),
    if_neg (by omega), if_neg (by omega), if_neg (by omega), Nat.add_sub_cancel_left]

theorem fieldVAR_quads (q3 q2 q1 : Word) (op : Opcode) (bw : BitVec 7) (v : Variant) (ns : BitVec 32) :
    fieldVAR (quads q3 q2 q1 (controlQuad op bw (variantBit v) ns)) = v := by
  have h : (quads q3 q2 q1 (controlQuad op bw (variantBit v) ns)).getLsbD 15 = (variantBit v).getLsbD 0 := by
    rw [getLsbD_quads, if_pos (by omega), getLsbD_controlQuad, if_neg (by omega), if_neg (by omega),
      if_pos (by omega)]
  rw [fieldVAR, h]
  cases v <;> rfl

theorem opcodeOf_byte (op : Opcode) : opcodeOf op.byte = some op := by
  cases op <;> rfl

theorem byte_of_opcodeOf {b : Byte} {op : Opcode} (h : opcodeOf b = some op) : b = op.byte := by
  unfold opcodeOf at h
  split_ifs at h <;> (cases h; assumption)

/-- The descriptor of a packet made of 32 descriptor bytes and a payload. -/
theorem descriptorOf_append {d : BitVec 256} {p : Bytes} (hp : p.wf = true) :
    descriptorOf ((descriptorBytes d).append p) = d := by
  have hw : (descriptorBytes d).wf = true := Memory.ofList_wf _
  have hl : (descriptorBytes d).len = 32 := Machine.natToBytes_length 32 d.toNat
  have h1 := Memory.prefixList_append hw hp
  rw [hl] at h1
  have h2 := Memory.prefixList_ofList (natToBytes 32 d.toNat)
  rw [Machine.natToBytes_length] at h2
  unfold descriptorOf
  rw [h1]
  show BitVec.ofNat 256 (bytesToNat ((Memory.ofList (natToBytes 32 d.toNat)).prefixList 32)) = d
  rw [h2, Machine.bytesToNat_natToBytes 32 d.toNat d.isLt]
  simp

theorem payloadOf_append {d : BitVec 256} {p : Bytes} (hp : p.wf = true) :
    payloadOf ((descriptorBytes d).append p) = p := by
  have hw : (descriptorBytes d).wf = true := Memory.ofList_wf _
  have hl : (descriptorBytes d).len = 32 := Machine.natToBytes_length 32 d.toNat
  have h := Memory.slice_append_right hw hp
  rw [hl] at h
  unfold payloadOf
  rw [Memory.append_len, hl, Nat.add_sub_cancel_left]
  exact h

/-- The descriptor bytes and the payload of a packet make the packet again. -/
theorem append_descriptorOf_payloadOf {pkt : Bytes} (hw : pkt.wf = true) (hl : 32 ≤ pkt.len) :
    (descriptorBytes (descriptorOf pkt)).append (payloadOf pkt) = pkt := by
  have hlist : natToBytes 32 (descriptorOf pkt).toNat = pkt.prefixList 32 := by
    have h := Machine.bytesToNat_lt (pkt.prefixList 32)
    have h2 := Machine.natToBytes_bytesToNat (pkt.prefixList 32)
    rw [Memory.prefixList_length] at h h2
    unfold descriptorOf
    rw [BitVec.toNat_ofNat, Nat.mod_eq_of_lt h, h2]
  have hd : (descriptorBytes (descriptorOf pkt)) = pkt.slice 0 32 := by
    refine Memory.ext_get (Memory.ofList_wf _) (Memory.slice_wf hw 0 32) (Machine.natToBytes_length _ _) fun k hk
        => ?_
    have hk : k < 32 := by
      have hk' : k < (natToBytes 32 (descriptorOf pkt).toNat).length := hk
      rwa [Machine.natToBytes_length] at hk'
    show (Memory.ofList (natToBytes 32 (descriptorOf pkt).toNat)).get k = _
    rw [hlist, Memory.get_ofList, Memory.get_slice hw, if_pos hk, Nat.zero_add,
      List.getD_eq_getElem _ _ (by rwa [Memory.prefixList_length])]
    simp [Memory.prefixList]
  rw [hd]
  exact Memory.append_slices hw (by omega)

/-- Every set bit of a masked-out field is seen by the mask: the fields outside the mask do not matter. -/
theorem getLsbD_of_and_eq {n : Nat} {d m p : BitVec n} (h : d &&& m = p) (k : Nat) (hm : m.getLsbD k = true) :
    d.getLsbD k = p.getLsbD k := by
  rw [← h, BitVec.getLsbD_and, hm, Bool.and_true]

/-- A descriptor is its four quadwords. -/
theorem quads_fields (d : BitVec 256) : quads (fieldQ3 d) (fieldQ2 d) (fieldQ1 d) (d.extractLsb' 0 64) = d := by
  apply BitVec.eq_of_getLsbD_eq
  intro k hk
  rw [getLsbD_quads]
  by_cases h1 : k < 64
  · rw [if_pos h1, getLsbD_field _ _ h1, Nat.zero_add]
  by_cases h2 : k < 128
  · rw [if_neg h1, if_pos h2, fieldQ1, getLsbD_field _ _ (by omega), show 64 + (k - 64) = k by omega]
  by_cases h3 : k < 192
  · rw [if_neg h1, if_neg h2, if_pos h3, fieldQ2, getLsbD_field _ _ (by omega), show 128 + (k - 128) = k by omega]
  · rw [if_neg h1, if_neg h2, if_neg h3, fieldQ3, getLsbD_field _ _ (by omega), show 192 + (k - 192) = k by omega]

/-- A control quadword is its fields, once its reserved bits are zero. -/
theorem controlQuad_fields (d : BitVec 256) (op : Opcode) (hop : fieldOP d = op.byte) (hr : d.extractLsb' 16 16 = 0) :
    controlQuad op (fieldBW d) (variantBit (fieldVAR d)) (fieldNS d) = d.extractLsb' 0 64 := by
  apply BitVec.eq_of_getLsbD_eq
  intro k hk
  have hvar : (variantBit (fieldVAR d)).getLsbD 0 = d.getLsbD 15 := by
    unfold fieldVAR
    cases h : d.getLsbD 15 <;> rfl
  rw [getLsbD_controlQuad, getLsbD_field _ _ hk, Nat.zero_add]
  by_cases h1 : k < 8
  · rw [if_pos h1, ← hop, fieldOP, getLsbD_field _ _ h1, Nat.zero_add]
  by_cases h2 : k < 15
  · rw [if_neg h1, if_pos h2, fieldBW, getLsbD_field _ _ (by omega), show 8 + (k - 8) = k by omega]
  by_cases h3 : k < 16
  · obtain rfl : k = 15 := by omega
    rw [if_neg h1, if_neg h2, if_pos h3, ← hvar]
  by_cases h4 : k < 32
  · have := getLsbD_field d 16 (len := 16) (k := k - 16) (by omega)
    rw [hr, show 16 + (k - 16) = k by omega] at this
    rw [if_neg h1, if_neg h2, if_neg h3, if_pos h4, ← this]
    exact BitVec.getLsbD_zero.symm
  · rw [if_neg h1, if_neg h2, if_neg h3, if_neg h4, fieldNS, getLsbD_field _ _ (by omega), show 32 + (k - 32) = k
      by omega]

/-- Q1 is the two timestamp halves (30 R75). -/
theorem halves_fields (d : BitVec 256) : fieldHigh d ++ fieldLow d = fieldQ1 d := by
  apply BitVec.eq_of_getLsbD_eq
  intro k hk
  refine (BitVec.getLsbD_append (x := fieldHigh d) (y := fieldLow d)).trans ?_
  rw [fieldQ1, getLsbD_field _ _ hk]
  by_cases h : k < 32
  · rw [if_pos h, fieldLow, getLsbD_field _ _ h]
  · rw [if_neg h, fieldHigh, getLsbD_field _ _ (by omega), show 96 + (k - 32) = 64 + k by omega]

/-- A field the row's mask covers is the row's. -/
theorem field_of_row {op : Opcode} {d : BitVec 256} (hm : d &&& op.mask = op.pattern) (st len : Nat)
   (hall : op.mask.extractLsb' st len = BitVec.allOnes len) : d.extractLsb' st len = op.pattern.extractLsb' st len
       := by
  apply BitVec.eq_of_getLsbD_eq
  intro k hk
  rw [getLsbD_field _ _ hk, getLsbD_field _ _ hk]
  apply getLsbD_of_and_eq hm
  rw [← getLsbD_field _ _ hk, hall, BitVec.getLsbD_allOnes]
  simpa using hk

/-- What it takes for a packet to decode, and what it then decodes to (30 R80). -/
theorem decode_ok {pkt : Bytes} {i : Instr} (h : decode pkt = .ok i) :
   ∃ op, 32 ≤ pkt.len ∧ fieldOP (descriptorOf pkt) = op.byte ∧ descriptorOf pkt &&& op.mask = op.pattern ∧
     (op = .ovWrite ∨ pkt.len = 32) ∧ i = assemble op (descriptorOf pkt) (payloadOf pkt) := by
  unfold decode at h
  split at h
  · cases h
  · split at h
    · cases h
    · rename_i op hop
      split at h
      · cases h
      · split at h
        · cases h
        · rename_i h1 h2 h3
          refine ⟨op, by omega, byte_of_opcodeOf hop, by simpa using h2, ?_, by cases h; rfl⟩
          by_contra hc
          simp only [not_or] at hc
          exact h3 hc

theorem decode_of_row {pkt : Bytes} {op : Opcode} (hl : 32 ≤ pkt.len) (hop : fieldOP (descriptorOf pkt) = op.byte)
  (hm : descriptorOf pkt &&& op.mask = op.pattern) (hp : op = .ovWrite ∨ pkt.len = 32) :
  decode pkt = .ok (assemble op (descriptorOf pkt) (payloadOf pkt)) := by
  unfold decode
  rw [if_neg (by omega), hop, opcodeOf_byte]
  simp only [hm, ne_eq, not_true_eq_false, if_false]
  rw [if_neg]
  rintro ⟨h1, h2⟩
  rcases hp with h | h
  · exact h1 h
  · exact h2 h

theorem fieldOP_descriptor (i : Instr) : fieldOP (descriptor i) = i.opcode.byte := by
  cases i <;> exact fieldOP_quads _ _ _ _ _ _ _

end Sys2Proof
end

