-- ==== Sys2Proof/Laws/State.lean ====
section
/-! SUPPORT. One lemma per field per update of the state, so that no later proof unfolds a record update. -/

namespace Sys2Proof.Machine

@[simp] theorem State.setWs_cfg (s : State) (m : Words) : (s.setWs m).cfg = s.cfg := rfl
@[simp] theorem State.setWs_ws (s : State) (m : Words) : (s.setWs m).ws = m := rfl
@[simp] theorem State.setWs_buf (s : State) (m : Words) : (s.setWs m).buf = s.buf := rfl
@[simp] theorem State.setWs_inbox (s : State) (m : Words) : (s.setWs m).inbox = s.inbox := rfl
@[simp] theorem State.setWs_responses (s : State) (m : Words) : (s.setWs m).responses = s.responses := rfl
@[simp] theorem State.setWs_observed (s : State) (m : Words) : (s.setWs m).observed = s.observed := rfl

@[simp] theorem State.setBuf_cfg (s : State) (m : Bytes) : (s.setBuf m).cfg = s.cfg := rfl
@[simp] theorem State.setBuf_ws (s : State) (m : Bytes) : (s.setBuf m).ws = s.ws := rfl
@[simp] theorem State.setBuf_buf (s : State) (m : Bytes) : (s.setBuf m).buf = m := rfl
@[simp] theorem State.setBuf_inbox (s : State) (m : Bytes) : (s.setBuf m).inbox = s.inbox := rfl
@[simp] theorem State.setBuf_responses (s : State) (m : Bytes) : (s.setBuf m).responses = s.responses := rfl
@[simp] theorem State.setBuf_observed (s : State) (m : Bytes) : (s.setBuf m).observed = s.observed := rfl

@[simp] theorem State.setInbox_cfg (s : State) (l : List HostAction) : (s.setInbox l).cfg = s.cfg := rfl
@[simp] theorem State.setInbox_ws (s : State) (l : List HostAction) : (s.setInbox l).ws = s.ws := rfl
@[simp] theorem State.setInbox_buf (s : State) (l : List HostAction) : (s.setInbox l).buf = s.buf := rfl
@[simp] theorem State.setInbox_inbox (s : State) (l : List HostAction) : (s.setInbox l).inbox = l := rfl
@[simp] theorem State.setInbox_responses (s : State) (l : List HostAction) : (s.setInbox l).responses = s.responses
    := rfl
@[simp] theorem State.setInbox_observed (s : State) (l : List HostAction) : (s.setInbox l).observed = s.observed :=
    rfl

@[simp] theorem State.setResponses_cfg (s : State) (l : List Response) : (s.setResponses l).cfg = s.cfg := rfl
@[simp] theorem State.setResponses_ws (s : State) (l : List Response) : (s.setResponses l).ws = s.ws := rfl
@[simp] theorem State.setResponses_buf (s : State) (l : List Response) : (s.setResponses l).buf = s.buf := rfl
@[simp] theorem State.setResponses_inbox (s : State) (l : List Response) : (s.setResponses l).inbox = s.inbox := rfl
@[simp] theorem State.setResponses_responses (s : State) (l : List Response) : (s.setResponses l).responses = l := rfl
@[simp] theorem State.setResponses_observed (s : State) (l : List Response) : (s.setResponses l).observed =
    s.observed := rfl

@[simp] theorem State.observe_cfg (s : State) (o : Observation) : (s.observe o).cfg = s.cfg := rfl
@[simp] theorem State.observe_ws (s : State) (o : Observation) : (s.observe o).ws = s.ws := rfl
@[simp] theorem State.observe_buf (s : State) (o : Observation) : (s.observe o).buf = s.buf := rfl
@[simp] theorem State.observe_inbox (s : State) (o : Observation) : (s.observe o).inbox = s.inbox := rfl
@[simp] theorem State.observe_responses (s : State) (o : Observation) : (s.observe o).responses = s.responses := rfl
@[simp] theorem State.observe_observed (s : State) (o : Observation) : (s.observe o).observed = s.observed ++ [o]
    := rfl

@[simp] theorem State.respond_cfg (s : State) (st : Status) (r : Word) (p : Bytes) : (s.respond st r p).cfg = s.cfg
    := rfl
@[simp] theorem State.respond_ws (s : State) (st : Status) (r : Word) (p : Bytes) : (s.respond st r p).ws = s.ws :=
    rfl
@[simp] theorem State.respond_buf (s : State) (st : Status) (r : Word) (p : Bytes) : (s.respond st r p).buf = s.buf
    := rfl
@[simp] theorem State.respond_inbox (s : State) (st : Status) (r : Word) (p : Bytes) : (s.respond st r p).inbox =
    s.inbox := rfl
@[simp] theorem State.respond_responses (s : State) (st : Status) (r : Word) (p : Bytes) : (s.respond st r
    p).responses = s.responses ++ [⟨st, r, p⟩] := rfl
@[simp] theorem State.respond_observed (s : State) (st : Status) (r : Word) (p : Bytes) : (s.respond st r
    p).observed = s.observed := rfl

@[simp] theorem State.raise_cfg (s : State) (e : CmdError) : (s.raise e).cfg = s.cfg := rfl
@[simp] theorem State.raise_ws (s : State) (e : CmdError) : (s.raise e).ws = s.ws := rfl
@[simp] theorem State.raise_buf (s : State) (e : CmdError) : (s.raise e).buf = s.buf := rfl
@[simp] theorem State.raise_inbox (s : State) (e : CmdError) : (s.raise e).inbox = s.inbox := rfl
@[simp] theorem State.raise_responses (s : State) (e : CmdError) : (s.raise e).responses = s.responses ++ [⟨.error
    e, 0, Memory.empty⟩] := rfl
@[simp] theorem State.raise_observed (s : State) (e : CmdError) : (s.raise e).observed = s.observed := rfl

/-- A response does not depend on the memories it is given after. -/
theorem State.respond_setWs (s : State) (m : Words) (st : Status) (r : Word) (p : Bytes) :
    (s.setWs m).respond st r p = (s.respond st r p).setWs m := rfl

theorem State.respond_setBuf (s : State) (m : Bytes) (st : Status) (r : Word) (p : Bytes) :
    (s.setBuf m).respond st r p = (s.respond st r p).setBuf m := rfl

/-- Two states with the same six fields are the same state. -/
theorem State.ext_fields {s t : State} (h1 : s.cfg = t.cfg) (h2 : s.ws = t.ws) (h3 : s.buf = t.buf)
    (h4 : s.inbox = t.inbox) (h5 : s.responses = t.responses) (h6 : s.observed = t.observed) : s = t := by
  cases s
  cases t
  simp_all

end Sys2Proof.Machine
end

