-- ==== Sys2Proof/Laws/Ops.lean ====
section
/-! SUPPORT. One lemma for each shared operation that says all it can do. -/

namespace Sys2Proof.Machine

theorem readWs_eq {s : State} {k : Nat} (h : k < s.ws.len) (f : Word → Result) : readWs s k f = f (s.ws.get k) :=
  if_pos h

theorem writeWs_eq {s : State} {k : Nat} (h : k < s.ws.len) (v : Word) (f : State → Result) :
    writeWs s k v f = f (s.setWs (s.ws.set k v)) := if_pos h

theorem memRead_eq {s : State} {a n : Nat} (h : a + n ≤ s.buf.len) (f : Bytes → Result) :
    memRead s a n f = f (s.buf.slice a n) := if_pos h

theorem memWrite_eq {s : State} {a : Nat} {p : Bytes} (h : a + p.len ≤ s.buf.len) (f : State → Result) :
    memWrite s a p f = f (s.setBuf (s.buf.overwrite a p)) := if_pos h

theorem legalField_iff {b : BitVec 7} {n : BitVec 32} {s : State} :
    legalField b n s = true ↔ 1 ≤ b.toNat ∧ b.toNat ≤ s.cfg.W ∧ n.toNat * b.toNat ≤ s.cfg.W * s.ws.len := by
  simp [legalField, and_assoc]

theorem indexInRange_iff {n : BitVec 32} {index : Word} : indexInRange n index = true ↔ index.toNat < n.toNat := by
  simp [indexInRange]

theorem valueInRange_iff {b : BitVec 7} {value : Word} : valueInRange b value = true ↔ value.toNat < 2 ^ b.toNat := by
  simp [valueInRange]

/-- What `withSample` does: one of the two checks fails, or the rest runs at a position inside WS. -/
theorem withSample_cases (b : BitVec 7) (n : BitVec 32) (index : Word) (s : State) (f : Position → Result) :
    (legalField b n s = false ∧ withSample b n index s f = fail s .illegalCommand) ∨
    (legalField b n s = true ∧ n.toNat ≤ index.toNat ∧ withSample b n index s f = fail s .indexOutOfRange) ∨
    (legalField b n s = true ∧ index.toNat < n.toNat ∧
      withSample b n index s f = f (samplePosition s.cfg.W b.toNat index.toNat)) := by
  unfold withSample
  by_cases h1 : legalField b n s = true
  · by_cases h2 : index.toNat < n.toNat
    · simp [h1, h2, indexInRange_iff.2 h2]
    · have h3 : indexInRange n index = false := by simp [indexInRange]; omega
      simp [h1, h3, Nat.le_of_not_lt h2]
  · simp [h1]

/-- What `withSize` does (43 R141). -/
theorem withSize_eq (s : State) (hs c cs : Nat) (f : Nat → Result) :
    withSize s hs c cs f =
      if 2 ^ s.cfg.lenBits.bits ≤ recordSize s.cfg hs c cs then fail s .sizeOverflow
      else f (recordSize s.cfg hs c cs) := by
  unfold withSize
  rw [checkedSize_eq]
  by_cases h : recordSize s.cfg hs c cs < 2 ^ s.cfg.lenBits.bits
  · rw [if_pos h, if_neg (Nat.not_le.2 h)]
  · rw [if_neg h, if_pos (Nat.le_of_not_lt h)]

/-- The sample BF.GET reads from its one or two words. -/
def sampleRead (s : State) (b : BitVec 7) (index : Word) : Word :=
  let p := samplePosition s.cfg.W b.toNat index.toNat
  if 0 < p.remainderBits then joinParts b.toNat p (s.ws.get p.wordIndex) (s.ws.get (p.wordIndex + 1))
  else lowPart p (s.ws.get p.wordIndex) &&& mask b.toNat

/-- BF.GET on a legal descriptor and an index in range: no access outside WS, one response. -/
theorem execBfGet_eq {b : BitVec 7} {n : BitVec 32} {index : Word} {s : State} (hl : legalField b n s = true)
    (hi : index.toNat < n.toNat) : execBfGet b n index s = finish s (sampleRead s b index) := by
  obtain ⟨h1, -, h3⟩ := legalField_iff.1 hl
  obtain ⟨hin, hin'⟩ := samplePosition_inside (W_pos s.cfg) h1 h3 hi
  unfold execBfGet withSample sampleRead
  rw [hl, indexInRange_iff.2 hi]
  generalize samplePosition s.cfg.W b.toNat index.toNat = p at *
  simp only [Bool.not_true, Bool.false_eq_true, if_false]
  rw [readWs_eq hin]
  by_cases hr : 0 < p.remainderBits
  · rw [if_pos hr, if_pos hr, readWs_eq (hin' hr)]
  · rw [if_neg hr, if_neg hr]

/-- The three ways BF.GET can end. -/
theorem execBfGet_cases (b : BitVec 7) (n : BitVec 32) (index : Word) (s : State) :
    (legalField b n s = false ∧ execBfGet b n index s = fail s .illegalCommand) ∨
    (legalField b n s = true ∧ n.toNat ≤ index.toNat ∧ execBfGet b n index s = fail s .indexOutOfRange) ∨
    (legalField b n s = true ∧ index.toNat < n.toNat ∧
      execBfGet b n index s = finish s (sampleRead s b index)) := by
  rcases withSample_cases b n index s _ with h | h | ⟨h1, h2, -⟩
  · exact .inl h
  · exact .inr (.inl h)
  · exact .inr (.inr ⟨h1, h2, execBfGet_eq h1 h2⟩)

/-- WS after a successful BF.SET. -/
def wsAfterSet (s : State) (b : BitVec 7) (index value : Word) : Words :=
  let p := samplePosition s.cfg.W b.toNat index.toNat
  let ws1 := s.ws.set p.wordIndex (mergeFirst s.cfg.W p (s.ws.get p.wordIndex) value)
  if 0 < p.remainderBits then
    ws1.set (p.wordIndex + 1) (mergeSecond s.cfg.W p (ws1.get (p.wordIndex + 1)) value)
  else ws1

/-- BF.SET on a legal descriptor, an index and a value in range. -/
theorem execBfSet_eq {b : BitVec 7} {n : BitVec 32} {index value : Word} {s : State}
    (hl : legalField b n s = true) (hi : index.toNat < n.toNat) (hv : value.toNat < 2 ^ b.toNat) :
    execBfSet b n index value s = finish (s.setWs (wsAfterSet s b index value)) 0 := by
  obtain ⟨h1, -, h3⟩ := legalField_iff.1 hl
  obtain ⟨hin, hin'⟩ := samplePosition_inside (W_pos s.cfg) h1 h3 hi
  unfold execBfSet withSample wsAfterSet
  rw [hl, indexInRange_iff.2 hi, valueInRange_iff.2 hv]
  generalize samplePosition s.cfg.W b.toNat index.toNat = p at *
  simp only [Bool.not_true, Bool.false_eq_true, if_false]
  rw [readWs_eq hin, writeWs_eq hin]
  by_cases hr : 0 < p.remainderBits
  · rw [if_pos hr, if_pos hr, readWs_eq (by exact hin' hr), writeWs_eq (by exact hin' hr)]
    rfl
  · rw [if_neg hr, if_neg hr]

/-- The five ways BF.SET can end. -/
theorem execBfSet_cases (b : BitVec 7) (n : BitVec 32) (index value : Word) (s : State) :
    (legalField b n s = false ∧ execBfSet b n index value s = fail s .illegalCommand) ∨
    (legalField b n s = true ∧ n.toNat ≤ index.toNat ∧ execBfSet b n index value s = fail s .indexOutOfRange) ∨
    (legalField b n s = true ∧ index.toNat < n.toNat ∧ 2 ^ b.toNat ≤ value.toNat ∧
      execBfSet b n index value s = fail s .valueOutOfRange) ∨
    (legalField b n s = true ∧ index.toNat < n.toNat ∧ value.toNat < 2 ^ b.toNat ∧
      execBfSet b n index value s = finish (s.setWs (wsAfterSet s b index value)) 0) := by
  by_cases hv : value.toNat < 2 ^ b.toNat
  · by_cases hok : legalField b n s = true ∧ index.toNat < n.toNat
    · exact .inr (.inr (.inr ⟨hok.1, hok.2, hv, execBfSet_eq hok.1 hok.2 hv⟩))
    · rcases withSample_cases b n index s _ with h | h | h
      · exact .inl h
      · exact .inr (.inl h)
      · exact absurd ⟨h.1, h.2.1⟩ hok
  · rcases withSample_cases b n index s _ with h | h | ⟨h1, h2, h3⟩
    · exact .inl h
    · exact .inr (.inl h)
    · refine .inr (.inr (.inl ⟨h1, h2, Nat.le_of_not_lt hv, h3.trans ?_⟩))
      have h4 : valueInRange b value = false := by simp [valueInRange]; omega
      simp [h4]

/-- Stream bit `W * k + j`, found in its word. -/
theorem streamBit_word (s : State) (k : Nat) {j : Nat} (hj : j < s.cfg.W) :
    s.streamBit (s.cfg.W * k + j) = (s.ws.get k).getLsbD j := by
  unfold State.streamBit
  rw [Nat.mul_add_div (W_pos _), Nat.div_eq_of_lt hj, Nat.add_zero, Nat.mul_add_mod, Nat.mod_eq_of_lt hj]

/-- The bits of the sample BF.GET reads are stream bits (41 R107). -/
theorem getLsbD_sampleRead {s : State} {b : BitVec 7} (index : Word) (hB : 1 ≤ b.toNat) (hBW : b.toNat ≤ s.cfg.W)
    (t : Nat) :
    (sampleRead s b index).getLsbD t =
      (decide (t < b.toNat) && s.streamBit (b.toNat * index.toNat + t)) := by
  obtain ⟨h1, h2, h3, h4, h5, h6, h7⟩ := samplePosition_bounds (index := index.toNat) (W_pos s.cfg) hB
  have hW := W_le s.cfg
  unfold sampleRead
  generalize samplePosition s.cfg.W b.toNat index.toNat = p at *
  rw [← h6]
  by_cases ht : t < b.toNat
  · by_cases hlow : t < p.firstBits
    · have hs : s.streamBit (s.cfg.W * p.wordIndex + p.bitOffset + t) = (s.ws.get p.wordIndex).getLsbD (p.bitOffset
        + t) := by
        rw [Nat.add_assoc]
        exact streamBit_word s _ (by omega)
      rw [hs]
      by_cases hr : 0 < p.remainderBits
      · rw [if_pos hr, getLsbD_joinParts _ _ _ _ h5 (by omega), if_pos hlow]
      · rw [if_neg hr, BitVec.getLsbD_and, getLsbD_lowPart, getLsbD_mask]
        simp [hlow, ht, show t < 64 by omega]
    · have hr : 0 < p.remainderBits := by omega
      have hs : s.streamBit (s.cfg.W * p.wordIndex + p.bitOffset + t) =
          (s.ws.get (p.wordIndex + 1)).getLsbD (t - p.firstBits) := by
        have h8 := h7 hr
        have h9 : s.cfg.W * p.wordIndex + p.bitOffset + t = s.cfg.W * (p.wordIndex + 1) + (t - p.firstBits) := by
          rw [Nat.mul_add, Nat.mul_one]
          omega
        rw [h9]
        exact streamBit_word s _ (by omega)
      rw [hs, if_pos hr, getLsbD_joinParts _ _ _ _ h5 (by omega), if_neg hlow]
  · by_cases hr : 0 < p.remainderBits
    · rw [if_pos hr, getLsbD_joinParts _ _ _ _ h5 (by omega)]
      simp [ht]
    · rw [if_neg hr, BitVec.getLsbD_and, getLsbD_mask]
      simp [ht]

/-- What a successful BF.SET leaves at each word address. -/
theorem get_wsAfterSet {s : State} (hw : s.ws.wf = true) (b : BitVec 7) (index value : Word)
    (hin : (samplePosition s.cfg.W b.toNat index.toNat).wordIndex < s.ws.len) (k : Nat) :
    (wsAfterSet s b index value).get k =
      let p := samplePosition s.cfg.W b.toNat index.toNat
      if k = p.wordIndex then mergeFirst s.cfg.W p (s.ws.get k) value
      else if 0 < p.remainderBits ∧ k = p.wordIndex + 1 then mergeSecond s.cfg.W p (s.ws.get k) value
      else s.ws.get k := by
  unfold wsAfterSet
  generalize samplePosition s.cfg.W b.toNat index.toNat = p at *
  dsimp only
  by_cases hr : 0 < p.remainderBits
  · rw [if_pos hr, Memory.get_set (Memory.set_wf hw _ hin), Memory.get_set hw, Memory.get_set hw]
    by_cases h1 : k = p.wordIndex
    · subst h1
      rw [if_neg (by omega), if_pos rfl, if_pos rfl]
    · by_cases h2 : k = p.wordIndex + 1
      · subst h2
        rw [if_pos rfl, if_neg (by omega), if_neg (by omega), if_pos ⟨hr, rfl⟩]
      · rw [if_neg h2, if_neg h1, if_neg h1, if_neg (fun h => h2 h.2)]
  · rw [if_neg hr, Memory.get_set hw]
    by_cases h1 : k = p.wordIndex
    · subst h1
      rw [if_pos rfl, if_pos rfl]
    · rw [if_neg h1, if_neg h1, if_neg (fun h => hr h.1)]

theorem wsAfterSet_len (s : State) (b : BitVec 7) (index value : Word) :
    (wsAfterSet s b index value).len = s.ws.len := by
  unfold wsAfterSet
  dsimp only
  split <;> rfl

theorem wsAfterSet_wf {s : State} (hw : s.ws.wf = true) (b : BitVec 7) (index value : Word)
    (hin : (samplePosition s.cfg.W b.toNat index.toNat).wordIndex < s.ws.len)
    (hin' : 0 < (samplePosition s.cfg.W b.toNat index.toNat).remainderBits →
      (samplePosition s.cfg.W b.toNat index.toNat).wordIndex + 1 < s.ws.len) :
    (wsAfterSet s b index value).wf = true := by
  unfold wsAfterSet
  dsimp only
  split
  · exact Memory.set_wf (Memory.set_wf hw _ hin) _ (hin' ‹_›)
  · exact Memory.set_wf hw _ hin

/-- A move that issues a packet executes it on the state as it is. -/
theorem step_issue {s : State} {pkt : Bytes} {rest : List HostAction} (h : s.inbox = .issue pkt :: rest)
    (hw : pkt.wf = true) (hl : 32 ≤ pkt.len) : step s = runPacket pkt (s.setInbox rest) := by
  unfold step
  rw [h]
  show (if isPacket pkt then _ else _) = _
  rw [if_pos]
  simp [isPacket, hw, hl]

/-- BUF after a successful OV.WRITE. -/
def bufAfterWrite (s : State) (headerSize count childSize : Word) (payload : Bytes) : Bytes :=
  ((s.buf.overwrite 0 (payload.slice 0 headerSize.toNat)).overwrite headerSize.toNat
      (encCount s.cfg count.toNat)).overwrite (headerSize.toNat + s.cfg.countBytes)
    (payload.slice headerSize.toNat (count.toNat * childSize.toNat))

/-- The ways OV.WRITE can end (43 R150). -/
theorem execOvWrite_eq (hs c cs : Word) (payload : Bytes) (s : State) :
    execOvWrite hs c cs payload s =
      if cs.toNat = 0 ∨ payload.len ≠ hs.toNat + c.toNat * cs.toNat then fail s .illegalCommand
      else if 2 ^ (8 * s.cfg.countBytes) ≤ c.toNat then fail s .valueOutOfRange
      else if 2 ^ s.cfg.lenBits.bits ≤ recordSize s.cfg hs.toNat c.toNat cs.toNat then fail s .sizeOverflow
      else if s.buf.len < recordSize s.cfg hs.toNat c.toNat cs.toNat then fail s .bufferTooShort
      else finish (s.setBuf (bufAfterWrite s hs c cs payload)) 0 := by
  unfold execOvWrite
  simp only [legalChildSize, legalPayload, countFits, Bool.or_eq_true, Bool.not_eq_true', decide_eq_false_iff_not,
    Nat.not_le, Nat.lt_one_iff, Nat.not_lt, ne_eq]
  split
  · rfl
  split
  · rfl
  rw [withSize_eq]
  split
  · rfl
  split
  · rfl
  · rename_i h
    have h : hs.toNat + s.cfg.countBytes + c.toNat * cs.toNat ≤ s.buf.len := Nat.le_of_not_lt h
    rw [memWrite_eq (by simp only [Memory.slice_len]; omega),
      memWrite_eq (by simp only [State.setBuf_buf, Memory.overwrite_len, encCount_len]; omega),
      memWrite_eq (by simp only [State.setBuf_buf, Memory.overwrite_len, Memory.slice_len]; omega)]
    rfl

/-- The ways OV.READ can end (43 R156). -/
theorem execOvRead_eq (hs cs : Word) (s : State) :
    execOvRead hs cs s =
      if cs.toNat = 0 then fail s .illegalCommand
      else if 2 ^ s.cfg.lenBits.bits ≤ hs.toNat + s.cfg.countBytes then fail s .sizeOverflow
      else if s.buf.len < hs.toNat + s.cfg.countBytes then fail s .bufferTooShort
      else if 2 ^ s.cfg.lenBits.bits ≤ recordSize s.cfg hs.toNat (storedCount s hs.toNat) cs.toNat then
        fail s .sizeOverflow
      else if s.buf.len < recordSize s.cfg hs.toNat (storedCount s hs.toNat) cs.toNat then fail s .bufferTooShort
      else finishWith s (BitVec.ofNat 64 (storedCount s hs.toNat))
        ((s.buf.slice 0 hs.toNat).append
          (s.buf.slice (hs.toNat + s.cfg.countBytes) (storedCount s hs.toNat * cs.toNat))) := by
  unfold execOvRead
  simp only [legalChildSize, fits, Bool.not_eq_true', decide_eq_false_iff_not, Nat.not_le, Nat.lt_one_iff, Nat.not_lt]
  split
  · rfl
  split
  · rfl
  split
  · rfl
  rw [memRead_eq (by omega), memRead_eq (by omega), withSize_eq]
  show (if _ ≤ recordSize s.cfg hs.toNat (storedCount s hs.toNat) cs.toNat then _ else _) = _
  generalize hc : storedCount s hs.toNat = c
  have hc' : decCount s.cfg (s.buf.slice hs.toNat s.cfg.countBytes) = c := hc
  rw [hc']
  split
  · rfl
  split
  · rfl
  · rename_i h
    have h : hs.toNat + s.cfg.countBytes + c * cs.toNat ≤ s.buf.len := Nat.le_of_not_lt h
    rw [memRead_eq (by omega)]

theorem execOvSize_eq (hs c cs : Word) (s : State) :
    execOvSize hs c cs s =
      if 2 ^ s.cfg.lenBits.bits ≤ recordSize s.cfg hs.toNat c.toNat cs.toNat then fail s .sizeOverflow
      else finish s (BitVec.ofNat 64 (recordSize s.cfg hs.toNat c.toNat cs.toNat)) := withSize_eq _ _ _ _ _

/-- The stream after a successful BF.SET: the sample's bits are the value's, every other bit is as before (41
    R107). -/
theorem streamBit_afterSet {s : State} {b : BitVec 7} {index value : Word} (hw : s.ws.wf = true)
   (hB : 1 ≤ b.toNat) (hBW : b.toNat ≤ s.cfg.W) (hv : value.toNat < 2 ^ b.toNat)
   (hin : (samplePosition s.cfg.W b.toNat index.toNat).wordIndex < s.ws.len) (u : Nat) :
   (s.setWs (wsAfterSet s b index value)).streamBit u =
     if b.toNat * index.toNat ≤ u ∧ u < b.toNat * index.toNat + b.toNat then value.getLsbD (u - b.toNat *
         index.toNat) else s.streamBit u := by
  obtain ⟨h1, h2, h3, h4, h5, h6, h7⟩ := samplePosition_bounds (index := index.toNat) (W_pos s.cfg) hB
  have hW := W_le s.cfg
  have hWp := W_pos s.cfg
  unfold State.streamBit
  rw [State.setWs_cfg, State.setWs_ws, get_wsAfterSet hw _ _ _ hin]
  have hdm : s.cfg.W * (u / s.cfg.W) + u % s.cfg.W = u := Nat.div_add_mod _ _
  have hm : u % s.cfg.W < s.cfg.W := Nat.mod_lt _ hWp
  generalize samplePosition s.cfg.W b.toNat index.toNat = p at *
  generalize u / s.cfg.W = k at *
  generalize u % s.cfg.W = j at *
  generalize s.cfg.W = W at *
  dsimp only
  by_cases hk : k = p.wordIndex
  · subst hk
    rw [if_pos rfl, getLsbD_mergeFirst W p _ _ hW h4, decide_eq_true hm, Bool.true_and]
    by_cases hin : p.bitOffset ≤ j ∧ j < p.bitOffset + p.firstBits
    · rw [if_pos hin, if_pos (by omega)]
      congr 1; omega
    · rw [if_neg hin, if_neg]
      by_cases hr : 0 < p.remainderBits
      · have := h7 hr; omega
      · omega
  · rw [if_neg hk]
    by_cases hk2 : 0 < p.remainderBits ∧ k = p.wordIndex + 1
    · obtain ⟨hr, rfl⟩ := hk2
      have h8 := h7 hr
      rw [Nat.mul_add, Nat.mul_one] at hdm
      rw [if_pos ⟨hr, rfl⟩, getLsbD_mergeSecond W p _ _ hW (by omega) (by rw [h5]; exact hv), decide_eq_true hm,
          Bool.true_and]
      by_cases hin : j < p.remainderBits
      · rw [if_pos hin, if_pos (by omega)]
        congr 1; omega
      · rw [if_neg hin, if_neg (by omega)]
    · rw [if_neg hk2, if_neg]
      rintro ⟨h8, h9⟩
      rcases Nat.lt_or_gt_of_ne hk with hlt | hgt
      · have := Nat.mul_le_mul_left W (show k + 1 ≤ p.wordIndex from hlt)
        rw [Nat.mul_add] at this; omega
      · have := Nat.mul_le_mul_left W (show p.wordIndex + 1 ≤ k from hgt)
        rw [Nat.mul_add] at this
        by_cases hr : 0 < p.remainderBits
        · have h10 := h7 hr
          have h11 : p.wordIndex + 2 ≤ k := by
            have : k ≠ p.wordIndex + 1 := fun h => hk2 ⟨hr, h⟩
            omega
          have := Nat.mul_le_mul_left W h11
          rw [Nat.mul_add] at this
          omega
        · omega

theorem State.wf_parts {s : State} (h : s.wf = true) :
    s.cfg.tsLayout.wf = true ∧ isWordStream s.cfg s.ws = true ∧ isBuffer s.buf = true ∧
      s.responses.all Response.wf = true ∧ s.observed.all Observation.wf = true := by
  simpa only [State.wf, Bool.and_eq_true, and_assoc] using h

theorem isWordStream_iff {cfg : Config} {ws : Words} :
    isWordStream cfg ws = true ↔ ws.wf = true ∧ ws.len < 2 ^ 58 ∧ ∀ k, (ws.get k).toNat < 2 ^ cfg.W := by
  unfold isWordStream
  rw [Bool.and_eq_true, Bool.and_eq_true, decide_eq_true_eq, and_assoc]
  constructor
  · rintro ⟨h1, h2, h3⟩
    exact ⟨h1, h2, (Memory.narrow_iff h1 _).1 h3⟩
  · rintro ⟨h1, h2, h3⟩
    exact ⟨h1, h2, (Memory.narrow_iff h1 _).2 h3⟩

theorem isBuffer_iff {buf : Bytes} : isBuffer buf = true ↔ buf.wf = true ∧ buf.len < 2 ^ 64 := by
  simp [isBuffer]

theorem State.ws_wf {s : State} (h : s.wf = true) : s.ws.wf = true := (isWordStream_iff.1 (State.wf_parts h).2.1).1
theorem State.buf_wf {s : State} (h : s.wf = true) : s.buf.wf = true := (isBuffer_iff.1 (State.wf_parts h).2.2.1).1

theorem legalField_congr {s s' : State} (hc : s'.cfg = s.cfg) (hl : s'.ws.len = s.ws.len) (b : BitVec 7)
    (n : BitVec 32) : legalField b n s' = legalField b n s := by
  rw [Bool.eq_iff_iff, legalField_iff, legalField_iff, hc, hl]

/-- A count is read back from its field (00 R15). -/
theorem decCount_encCount (cfg : Config) {c : Nat} (h : c < 2 ^ (8 * cfg.countBytes)) :
    decCount cfg (encCount cfg c) = c := by
  unfold decCount encCount
  have hl := orderedBytes_length cfg.countOrder cfg.countBytes c
  have hp := Memory.prefixList_ofList (orderedBytes cfg.countOrder cfg.countBytes c)
  rw [hl] at hp
  rw [hp, orderedNat_orderedBytes _ _ _ h]

theorem bufAfterWrite_len (s : State) (hs c cs : Word) (p : Bytes) : (bufAfterWrite s hs c cs p).len = s.buf.len :=
    rfl

section BufAfterWrite

variable {s : State} {hs c cs : Word} {p : Bytes} (hb : s.buf.wf = true) (hp : p.wf = true)
  (hfit : recordSize s.cfg hs.toNat c.toNat cs.toNat ≤ s.buf.len)
include hb hp hfit

theorem bufAfterWrite_wf : (bufAfterWrite s hs c cs p).wf = true := by
  unfold recordSize at hfit
  unfold bufAfterWrite
  refine Memory.overwrite_wf (Memory.overwrite_wf (Memory.overwrite_wf hb (Memory.slice_wf hp _ _) ?_)
    (encCount_wf _ _) ?_) (Memory.slice_wf hp _ _) ?_ <;>
  simp only [Memory.overwrite_len, Memory.slice_len, encCount_len] <;> omega

/-- BUF after a successful OV.WRITE, byte by byte (43 R150). -/
theorem get_bufAfterWrite (k : Nat) :
    (bufAfterWrite s hs c cs p).get k =
      if k < hs.toNat then p.get k
      else if k < hs.toNat + s.cfg.countBytes then (encCount s.cfg c.toNat).get (k - hs.toNat)
      else if k < recordSize s.cfg hs.toNat c.toNat cs.toNat then p.get (k - s.cfg.countBytes)
      else s.buf.get k := by
  unfold recordSize at *
  unfold bufAfterWrite
  have w1 := Memory.slice_wf hp 0 hs.toNat
  have w3 := Memory.slice_wf hp hs.toNat (c.toNat * cs.toNat)
  have l1 : 0 + (p.slice 0 hs.toNat).len ≤ s.buf.len := by rw [Memory.slice_len]; omega
  have w2 := Memory.overwrite_wf hb w1 l1
  have l2 : hs.toNat + (encCount s.cfg c.toNat).len ≤ (s.buf.overwrite 0 (p.slice 0 hs.toNat)).len := by
    rw [Memory.overwrite_len, encCount_len]; omega
  rw [Memory.get_overwrite (Memory.overwrite_wf w2 (encCount_wf _ _) l2) w3
    (by simp only [Memory.overwrite_len, Memory.slice_len]; omega),
    Memory.get_overwrite w2 (encCount_wf _ _) l2, Memory.get_overwrite hb w1 l1, Memory.get_slice hp,
    Memory.get_slice hp, Memory.slice_len, Memory.slice_len, encCount_len]
  by_cases h1 : k < hs.toNat
  · rw [if_neg (by omega), if_neg (by omega), if_pos (by omega), if_pos (by omega), if_pos h1]
    congr 1; omega
  · rw [if_neg h1]
    by_cases h2 : k < hs.toNat + s.cfg.countBytes
    · rw [if_neg (by omega), if_pos (by omega), if_pos h2]
    · rw [if_neg h2]
      by_cases h3 : k < hs.toNat + s.cfg.countBytes + c.toNat * cs.toNat
      · rw [if_pos (by omega), if_pos (by omega), if_pos h3]
        congr 1; omega
      · rw [if_neg (by omega), if_neg (by omega), if_neg (by omega), if_neg h3]

end BufAfterWrite

/-- A successful BF.SET leaves WS a stream of W-bit words in canonical form (10 R26). -/
theorem isWordStream_wsAfterSet {s : State} {b : BitVec 7} {n : BitVec 32} {index value : Word}
    (hw : isWordStream s.cfg s.ws = true) (hl : legalField b n s = true) (hi : index.toNat < n.toNat)
    (hv : value.toNat < 2 ^ b.toNat) : isWordStream s.cfg (wsAfterSet s b index value) = true := by
  obtain ⟨hB, hBW, hNB⟩ := legalField_iff.1 hl
  have hin := samplePosition_inside (W_pos s.cfg) hB hNB hi
  obtain ⟨h1, h2, h3, h4, h5, h6, h7⟩ := samplePosition_bounds (index := index.toNat) (W_pos s.cfg) hB
  obtain ⟨w1, w2, w3⟩ := isWordStream_iff.1 hw
  refine isWordStream_iff.2 ⟨wsAfterSet_wf w1 _ _ _ hin.1 hin.2, by rw [wsAfterSet_len]; exact w2, fun k => ?_⟩
  rw [get_wsAfterSet w1 _ _ _ hin.1]
  dsimp only
  split
  · apply toNat_lt_of_getLsbD
    intro i hi
    rw [getLsbD_mergeFirst _ _ _ _ (W_le _) h4, decide_eq_false (by omega), Bool.false_and]
  split
  · apply toNat_lt_of_getLsbD
    intro i hi
    rw [getLsbD_mergeSecond _ _ _ _ (W_le _) (by omega) (by rw [h5]; exact hv), decide_eq_false (by omega),
        Bool.false_and]
  · exact w3 k

end Sys2Proof.Machine
end

