-- ==== Sys2Proof/Laws/Exec.lean ====
section
/-! SUPPORT. What a command and a step can do, said once: a command fails with an error, or ends with OK and a WS and
a BUF of the same lengths; and both depend on the instance and the memories alone. -/

namespace Sys2Proof.Machine

/-- What command `i` does on an instance and memories, whatever the rest of the state. -/
def Effect (i : Instr) (cfg : Config) (ws : Words) (buf : Bytes) : Prop :=
  (∃ e, ∀ inbox rs obs, exec i ⟨cfg, ws, buf, inbox, rs, obs⟩ = fail ⟨cfg, ws, buf, inbox, rs, obs⟩ e) ∨
  (∃ ws' buf' r1 p,
    (∀ inbox rs obs, exec i ⟨cfg, ws, buf, inbox, rs, obs⟩ = finishWith ⟨cfg, ws', buf', inbox, rs, obs⟩ r1 p) ∧
    ws'.len = ws.len ∧ buf'.len = buf.len ∧ (i.opcode ≠ .bfSet → ws' = ws) ∧ (i.opcode ≠ .ovWrite → buf' = buf) ∧
    (isWordStream cfg ws = true → isWordStream cfg ws' = true) ∧
    (i.payload.wf = true → buf.wf = true → buf'.wf = true ∧ p.wf = true))

theorem effect_finish {i cfg ws buf} (r1 : Word) (h : ∀ inbox rs obs, exec i ⟨cfg, ws, buf, inbox, rs, obs⟩ =
    finish ⟨cfg, ws, buf, inbox, rs, obs⟩ r1) : Effect i cfg ws buf :=
  .inr ⟨ws, buf, r1, Memory.empty, h, rfl, rfl, fun _ => rfl, fun _ => rfl, fun h => h, fun _ h => ⟨h, rfl⟩⟩

theorem exec_effect (i : Instr) (cfg : Config) (ws : Words) (buf : Bytes) : Effect i cfg ws buf := by
  let s0 : State := ⟨cfg, ws, buf, [], [], []⟩
  cases i with
  | bfGet b n index =>
    rcases execBfGet_cases b n index s0 with ⟨h, -⟩ | ⟨h, h2, -⟩ | ⟨h, h2, -⟩
    · refine .inl ⟨.illegalCommand, fun inbox rs obs => ?_⟩
      rcases execBfGet_cases b n index ⟨cfg, ws, buf, inbox, rs, obs⟩ with ⟨h', e⟩ | ⟨h', _, e⟩ | ⟨h', _, e⟩
      · exact e
      · exact absurd (h.symm.trans h') (by decide)
      · exact absurd (h.symm.trans h') (by decide)
    · refine .inl ⟨.indexOutOfRange, fun inbox rs obs => ?_⟩
      rcases execBfGet_cases b n index ⟨cfg, ws, buf, inbox, rs, obs⟩ with ⟨h', e⟩ | ⟨h', _, e⟩ | ⟨h', _, e⟩
      · exact absurd (h.symm.trans h') (by decide)
      · exact e
      · omega
    · exact effect_finish (sampleRead s0 b index) fun inbox rs obs => execBfGet_eq (s := ⟨cfg, ws, buf, inbox, rs,
        obs⟩) h h2
  | bfSet b n index value =>
    rcases execBfSet_cases b n index value s0 with ⟨h, -⟩ | ⟨h, h2, -⟩ | ⟨h, h2, h3, -⟩ | ⟨h, h2, h3, -⟩
    · refine .inl ⟨.illegalCommand, fun inbox rs obs => ?_⟩
      rcases execBfSet_cases b n index value ⟨cfg, ws, buf, inbox, rs, obs⟩ with ⟨h', e⟩ | ⟨h', _, e⟩ | ⟨h', _, _,
          e⟩ | ⟨h', _, _, e⟩
      · exact e
      all_goals exact absurd (h.symm.trans h') (by decide)
    · refine .inl ⟨.indexOutOfRange, fun inbox rs obs => ?_⟩
      rcases execBfSet_cases b n index value ⟨cfg, ws, buf, inbox, rs, obs⟩ with ⟨h', e⟩ | ⟨h', _, e⟩ | ⟨h', _, _,
          e⟩ | ⟨h', _, _, e⟩
      · exact absurd (h.symm.trans h') (by decide)
      · exact e
      all_goals omega
    · refine .inl ⟨.valueOutOfRange, fun inbox rs obs => ?_⟩
      rcases execBfSet_cases b n index value ⟨cfg, ws, buf, inbox, rs, obs⟩ with ⟨h', e⟩ | ⟨h', _, e⟩ | ⟨h', _, _,
          e⟩ | ⟨h', _, _, e⟩
      · exact absurd (h.symm.trans h') (by decide)
      · omega
      · exact e
      · omega
    · refine .inr ⟨wsAfterSet s0 b index value, buf, 0, Memory.empty, fun inbox rs obs => execBfSet_eq (s := ⟨cfg,
        ws, buf, inbox, rs, obs⟩) h h2 h3, wsAfterSet_len _ _ _ _, rfl, fun h => absurd rfl h, fun _ => rfl, fun h'
        => isWordStream_wsAfterSet (s := s0) h' h h2 h3, fun _ h => ⟨h, rfl⟩⟩
  | tsCompose lo hi => exact effect_finish (joinHalves lo hi) fun _ _ _ => rfl
  | tsDecompose ts => exact effect_finish (joinHalves (lowHalf ts) (highHalf ts)) fun _ _ _ => rfl
  | tsGet v lo hi => cases v with
    | plain => exact effect_finish (joinHalves lo hi) fun _ _ _ => rfl
    | ext => exact effect_finish (extTimestamp cfg.tsLayout lo hi) fun _ _ _ => rfl
  | tsSet v lo hi ts => cases v with
    | plain => exact effect_finish (joinHalves (lowHalf ts) (highHalf ts)) fun _ _ _ => rfl
    | ext => exact effect_finish (joinHalves (lowHalf ts) (extHigh cfg.tsLayout hi ts)) fun _ _ _ => rfl
  | ovSize hs c cs =>
    by_cases h : 2 ^ cfg.lenBits.bits ≤ recordSize cfg hs.toNat c.toNat cs.toNat
    · exact .inl ⟨.sizeOverflow, fun _ _ _ => (execOvSize_eq _ _ _ _).trans (if_pos h)⟩
    · exact effect_finish (BitVec.ofNat 64 (recordSize cfg hs.toNat c.toNat cs.toNat)) fun _ _ _ => (execOvSize_eq
        _ _ _ _).trans (if_neg h)
  | ovWrite hs c cs p =>
    by_cases h1 : cs.toNat = 0 ∨ p.len ≠ hs.toNat + c.toNat * cs.toNat
    · exact .inl ⟨.illegalCommand, fun _ _ _ => (execOvWrite_eq _ _ _ _ _).trans (if_pos h1)⟩
    by_cases h2 : 2 ^ (8 * cfg.countBytes) ≤ c.toNat
    · exact .inl ⟨.valueOutOfRange, fun _ _ _ => (execOvWrite_eq _ _ _ _ _).trans ((if_neg h1).trans (if_pos h2))⟩
    by_cases h3 : 2 ^ cfg.lenBits.bits ≤ recordSize cfg hs.toNat c.toNat cs.toNat
    · exact .inl ⟨.sizeOverflow, fun _ _ _ => (execOvWrite_eq _ _ _ _ _).trans ((if_neg h1).trans ((if_neg
        h2).trans (if_pos h3)))⟩
    by_cases h4 : buf.len < recordSize cfg hs.toNat c.toNat cs.toNat
    · exact .inl ⟨.bufferTooShort, fun _ _ _ => (execOvWrite_eq _ _ _ _ _).trans ((if_neg h1).trans ((if_neg
        h2).trans ((if_neg h3).trans (if_pos h4))))⟩
    · exact .inr ⟨ws, bufAfterWrite s0 hs c cs p, 0, Memory.empty, fun _ _ _ => (execOvWrite_eq _ _ _ _ _).trans
        ((if_neg h1).trans ((if_neg h2).trans ((if_neg h3).trans (if_neg h4)))), rfl, rfl, fun _ => rfl, fun h =>
        absurd rfl h, fun h => h,
        fun hp hb => ⟨bufAfterWrite_wf (s := s0) hb hp (Nat.le_of_not_lt h4), rfl⟩⟩
  | ovRead hs cs =>
    by_cases h1 : cs.toNat = 0
    · exact .inl ⟨.illegalCommand, fun _ _ _ => (execOvRead_eq _ _ _).trans (if_pos h1)⟩
    by_cases h2 : 2 ^ cfg.lenBits.bits ≤ hs.toNat + cfg.countBytes
    · exact .inl ⟨.sizeOverflow, fun _ _ _ => (execOvRead_eq _ _ _).trans ((if_neg h1).trans (if_pos h2))⟩
    by_cases h3 : buf.len < hs.toNat + cfg.countBytes
    · exact .inl ⟨.bufferTooShort, fun _ _ _ => (execOvRead_eq _ _ _).trans ((if_neg h1).trans ((if_neg h2).trans
        (if_pos h3)))⟩
    by_cases h4 : 2 ^ cfg.lenBits.bits ≤ recordSize cfg hs.toNat (storedCount s0 hs.toNat) cs.toNat
    · exact .inl ⟨.sizeOverflow, fun _ _ _ => (execOvRead_eq _ _ _).trans ((if_neg h1).trans ((if_neg h2).trans
        ((if_neg h3).trans (if_pos h4))))⟩
    by_cases h5 : buf.len < recordSize cfg hs.toNat (storedCount s0 hs.toNat) cs.toNat
    · exact .inl ⟨.bufferTooShort, fun _ _ _ => (execOvRead_eq _ _ _).trans ((if_neg h1).trans ((if_neg h2).trans
        ((if_neg h3).trans ((if_neg h4).trans (if_pos h5)))))⟩
    · exact .inr ⟨ws, buf, BitVec.ofNat 64 (storedCount s0 hs.toNat), (s0.buf.slice 0 hs.toNat).append
        (s0.buf.slice (hs.toNat + cfg.countBytes) (storedCount s0 hs.toNat * cs.toNat)), fun _ _ _ =>
        (execOvRead_eq _ _ _).trans ((if_neg h1).trans ((if_neg h2).trans ((if_neg h3).trans ((if_neg h4).trans
        (if_neg h5))))), rfl, rfl, fun _ => rfl, fun _ => rfl, fun h => h,
        fun _ hb => ⟨hb, Memory.append_wf (Memory.slice_wf hb _ _) (Memory.slice_wf hb _ _)⟩⟩


/-- Of two response lists with one prior part, the new response is the same. -/
theorem response_inj {l : List Response} {r r' : Response} (h : l ++ [r'] = l ++ [r]) : r' = r :=
  (List.cons.inj (List.append_cancel_left h)).1

/-- A decoded command's payload is in canonical form if the packet is. -/
theorem payload_wf {pkt : Bytes} {i : Instr} (hw : pkt.wf = true) (h : decode pkt = .ok i) : i.payload.wf = true := by
  obtain ⟨op, -, -, -, -, rfl⟩ := decode_ok h
  cases op <;> first | rfl | exact Memory.slice_wf hw _ _

/-- A run goes on from the next state. -/
theorem run_succ {s t : State} (n : Nat) (h : step s = .next t) :
    Host.Core.run Sys2Proof.core (n + 1) s = Host.Core.run Sys2Proof.core n t := by
  have h' : Sys2Proof.core.step s = .next t := h
  have hr := Host.Core.run.eq_def Sys2Proof.core (n + 1) s
  dsimp only at hr
  rw [h'] at hr
  exact hr

end Sys2Proof.Machine
end

