-- ==== Sys2Proof/Laws/PerInstr.lean ====
section
/-! SUPPORT. A fact of every command as syntax, one lemma per constructor: its packet has the length 30 R82 gives, and
its descriptor selects its own row of the opcode map (30 R77). -/

namespace Sys2Proof

theorem masked_out {n : Nat} (x : BitVec n) : x &&& 0 = 0 := BitVec.and_zero

/-- Masking works quadword by quadword. -/
theorem quads_and (a b c d a' b' c' d' : Word) :
    quads a b c d &&& quads a' b' c' d' = quads (a &&& a') (b &&& b') (c &&& c') (d &&& d') := by
  apply BitVec.eq_of_getLsbD_eq
  intro k _
  simp only [BitVec.getLsbD_and, getLsbD_quads]
  split_ifs <;> rfl

/-- A mask of a control quadword, field by field. -/
def controlMask (bw : BitVec 7) (var : BitVec 1) (ns : BitVec 32) : Word :=
  ns ++ (0xFFFF : BitVec 16) ++ var ++ bw ++ (0xFF : BitVec 8)

theorem controlQuad_and (op : Opcode) (bw bw' : BitVec 7) (var var' : BitVec 1) (ns ns' : BitVec 32) :
    controlQuad op bw var ns &&& controlMask bw' var' ns' = controlQuad op (bw &&& bw') (var &&& var') (ns &&& ns')
        := by
  unfold controlQuad controlMask
  rw [BitVec.and_append, BitVec.and_append, BitVec.and_append, BitVec.and_append,
    show (0 : BitVec 16) &&& 0xFFFF = 0 from rfl, show op.byte &&& 0xFF = op.byte from BitVec.and_allOnes]

theorem encode_len (i : Instr) : (encode i).len = 32 + i.payload.len := by
  show (natToBytes 32 _).length + _ = _
  rw [Machine.natToBytes_length]

end Sys2Proof

/-- The packet of a command has 32 bytes and its payload, and its descriptor selects the command's own row. -/
def Sys2Proof.Laws.SelectsRow.Statement (i : Sys2Proof.Instr) : Prop :=
  (Sys2Proof.encode i).len = 32 + i.payload.len ∧ Sys2Proof.descriptor i &&& i.opcode.mask = i.opcode.pattern

namespace Sys2Proof

theorem Laws.SelectsRow.bfGet (b : BitVec 7) (n : BitVec 32) (index : Word) :
    Laws.SelectsRow.Statement (.bfGet b n index) := by
  refine ⟨encode_len _, ?_⟩
  show quads 0 0 index (controlQuad .bfGet b 0 n) &&& Opcode.mask .bfGet = _
  rw [show Opcode.mask .bfGet = quads 0xFFFFFFFFFFFFFFFF 0xFFFFFFFFFFFFFFFF 0 (controlMask 0 1 0) from rfl,
    quads_and, controlQuad_and]
  simp only [masked_out]
  rfl

theorem Laws.SelectsRow.bfSet (b : BitVec 7) (n : BitVec 32) (index value : Word) :
    Laws.SelectsRow.Statement (.bfSet b n index value) := by
  refine ⟨encode_len _, ?_⟩
  show quads 0 value index (controlQuad .bfSet b 0 n) &&& Opcode.mask .bfSet = _
  rw [show Opcode.mask .bfSet = quads 0xFFFFFFFFFFFFFFFF 0 0 (controlMask 0 1 0) from rfl,
    quads_and, controlQuad_and]
  simp only [masked_out]
  rfl

theorem Laws.SelectsRow.tsCompose (low high : Half) : Laws.SelectsRow.Statement (.tsCompose low high) := by
  refine ⟨encode_len _, ?_⟩
  show quads 0 0 (high ++ low) (controlQuad .tsCompose 0 0 0) &&& Opcode.mask .tsCompose = _
  rw [show Opcode.mask .tsCompose = quads 0xFFFFFFFFFFFFFFFF 0xFFFFFFFFFFFFFFFF 0 (controlMask 0x7F 1 0xFFFFFFFF)
      from rfl, quads_and, controlQuad_and]
  simp only [masked_out]
  rfl

theorem Laws.SelectsRow.tsDecompose (ts : Word) : Laws.SelectsRow.Statement (.tsDecompose ts) := by
  refine ⟨encode_len _, ?_⟩
  show quads 0 ts 0 (controlQuad .tsDecompose 0 0 0) &&& Opcode.mask .tsDecompose = _
  rw [show Opcode.mask .tsDecompose = quads 0xFFFFFFFFFFFFFFFF 0 0xFFFFFFFFFFFFFFFF (controlMask 0x7F 1 0xFFFFFFFF)
      from rfl, quads_and, controlQuad_and]
  simp only [masked_out]
  rfl

theorem Laws.SelectsRow.tsGet (variant : Variant) (low high : Half) :
    Laws.SelectsRow.Statement (.tsGet variant low high) := by
  refine ⟨encode_len _, ?_⟩
  show quads 0 0 (high ++ low) (controlQuad .tsGet 0 (variantBit variant) 0) &&& Opcode.mask .tsGet = _
  rw [show Opcode.mask .tsGet = quads 0xFFFFFFFFFFFFFFFF 0xFFFFFFFFFFFFFFFF 0 (controlMask 0x7F 0 0xFFFFFFFF)
      from rfl, quads_and, controlQuad_and]
  simp only [masked_out]
  rfl

theorem Laws.SelectsRow.tsSet (variant : Variant) (low high : Half) (ts : Word) :
    Laws.SelectsRow.Statement (.tsSet variant low high ts) := by
  refine ⟨encode_len _, ?_⟩
  show quads 0 ts (high ++ low) (controlQuad .tsSet 0 (variantBit variant) 0) &&& Opcode.mask .tsSet = _
  rw [show Opcode.mask .tsSet = quads 0xFFFFFFFFFFFFFFFF 0 0 (controlMask 0x7F 0 0xFFFFFFFF)
      from rfl, quads_and, controlQuad_and]
  simp only [masked_out]
  rfl

theorem Laws.SelectsRow.ovSize (headerSize count childSize : Word) :
    Laws.SelectsRow.Statement (.ovSize headerSize count childSize) := by
  refine ⟨encode_len _, ?_⟩
  show quads childSize count headerSize (controlQuad .ovSize 0 0 0) &&& Opcode.mask .ovSize = _
  rw [show Opcode.mask .ovSize = quads 0 0 0 (controlMask 0x7F 1 0xFFFFFFFF) from rfl,
    quads_and, controlQuad_and]
  simp only [masked_out]
  rfl

theorem Laws.SelectsRow.ovWrite (headerSize count childSize : Word) (payload : Bytes) :
    Laws.SelectsRow.Statement (.ovWrite headerSize count childSize payload) := by
  refine ⟨encode_len _, ?_⟩
  show quads childSize count headerSize (controlQuad .ovWrite 0 0 0) &&& Opcode.mask .ovWrite = _
  rw [show Opcode.mask .ovWrite = quads 0 0 0 (controlMask 0x7F 1 0xFFFFFFFF) from rfl,
    quads_and, controlQuad_and]
  simp only [masked_out]
  rfl

theorem Laws.SelectsRow.ovRead (headerSize childSize : Word) :
    Laws.SelectsRow.Statement (.ovRead headerSize childSize) := by
  refine ⟨encode_len _, ?_⟩
  show quads childSize 0 headerSize (controlQuad .ovRead 0 0 0) &&& Opcode.mask .ovRead = _
  rw [show Opcode.mask .ovRead = quads 0 0xFFFFFFFFFFFFFFFF 0 (controlMask 0x7F 1 0xFFFFFFFF) from rfl,
    quads_and, controlQuad_and]
  simp only [masked_out]
  rfl

end Sys2Proof
end

