-- ==== Sys2Proof/Laws/Timestamp.lean ====
section
/-! SUPPORT. What the timestamp computations answer, bit by bit (42 R120 to R126). -/

namespace Sys2Proof.Machine

theorem getLsbD_joinHalves (lo hi : Half) (i : Nat) :
    (joinHalves lo hi).getLsbD i = if i < 32 then lo.getLsbD i else hi.getLsbD (i - 32) := by
  unfold joinHalves
  rw [BitVec.getLsbD_or, BitVec.getLsbD_setWidth, BitVec.getLsbD_shiftLeft, BitVec.getLsbD_setWidth]
  by_cases h : i < 32
  · rw [if_pos h]; simp [h]; omega
  · rw [if_neg h, BitVec.getLsbD_of_ge lo i (by omega)]
    by_cases h64 : i < 64
    · simp [h, h64]; omega
    · rw [BitVec.getLsbD_of_ge hi (i - 32) (by omega)]; simp

theorem joinHalves_low (lo hi : Half) : (joinHalves lo hi).extractLsb' 0 32 = lo := by
  apply BitVec.eq_of_getLsbD_eq
  intro i h
  rw [BitVec.getLsbD_extractLsb', getLsbD_joinHalves]
  simp [h]

theorem joinHalves_high (lo hi : Half) : (joinHalves lo hi).extractLsb' 32 32 = hi := by
  apply BitVec.eq_of_getLsbD_eq
  intro i h
  rw [BitVec.getLsbD_extractLsb', getLsbD_joinHalves]
  simp [h]

theorem joinHalves_split (ts : Word) : joinHalves (lowHalf ts) (highHalf ts) = ts := by
  apply BitVec.eq_of_getLsbD_eq
  intro i h
  rw [getLsbD_joinHalves]
  unfold lowHalf highHalf
  rw [BitVec.getLsbD_extractLsb', BitVec.getLsbD_extractLsb']
  by_cases h32 : i < 32
  · simp [h32]
  · rw [if_neg h32, show 32 + (i - 32) = i by omega, decide_eq_true (show i - 32 < 32 by omega), Bool.true_and]

theorem toNat_joinHalves (lo hi : Half) : (joinHalves lo hi).toNat = lo.toNat + 2 ^ 32 * hi.toNat := by
  have h : joinHalves lo hi = hi ++ lo := by
    apply BitVec.eq_of_getLsbD_eq
    intro i _
    rw [getLsbD_joinHalves, BitVec.getLsbD_append]
  have h1 := lo.isLt
  rw [h, BitVec.toNat_append, ← Nat.shiftLeft_add_eq_or_of_lt h1, Nat.shiftLeft_eq]
  omega

theorem getLsbD_extTimestamp (l : TsLayout) (low high : Half) (i : Nat) :
    (extTimestamp l low high).getLsbD i =
      if i < 32 then low.getLsbD i
      else if i < 48 then (extFieldsOf l high).mid.getLsbD (i - 32)
      else (extFieldsOf l high).en && (extFieldsOf l high).ext.getLsbD (i - 48) := by
  unfold extTimestamp
  generalize extFieldsOf l high = f
  dsimp only
  have hbase : ((low.setWidth 64 : Word) ||| (f.mid.setWidth 64 <<< 32)).getLsbD i =
      if i < 32 then low.getLsbD i else if i < 48 then f.mid.getLsbD (i - 32) else false := by
    rw [BitVec.getLsbD_or, BitVec.getLsbD_setWidth, BitVec.getLsbD_shiftLeft, BitVec.getLsbD_setWidth]
    by_cases h : i < 32
    · simp [h]; omega
    · rw [BitVec.getLsbD_of_ge low i (by omega), if_neg h]
      by_cases h2 : i < 48
      · simp [h, h2, show i < 64 by omega]; omega
      · rw [if_neg h2, BitVec.getLsbD_of_ge f.mid (i - 32) (by omega)]; simp
  cases f.en
  · rw [if_neg (by simp), hbase]; simp
  · rw [if_pos rfl, BitVec.getLsbD_or, hbase, BitVec.getLsbD_shiftLeft, BitVec.getLsbD_setWidth]
    by_cases h : i < 48
    · simp [h]
    · by_cases h64 : i < 64
      · simp [h, show ¬ i < 32 by omega, h64]; omega
      · rw [BitVec.getLsbD_of_ge f.ext (i - 48) (by omega)]; simp

theorem getLsbD_packHigh (l : TsLayout) (f : ExtFields) (i : Nat) (hi : i < 32) :
    (packHigh l f).getLsbD i =
      ((decide (l.midPos ≤ i) && f.mid.getLsbD (i - l.midPos)) ||
       (decide (l.extPos ≤ i) && f.ext.getLsbD (i - l.extPos)) ||
       (decide (i = l.enPos) && (f.en == l.enSet))) := by
  unfold packHigh
  simp only [BitVec.getLsbD_or, BitVec.getLsbD_shiftLeft, BitVec.getLsbD_setWidth, hi, decide_true, Bool.true_and]
  have e1 : ∀ p : Nat, decide (i - p < 32) = true := fun p => decide_eq_true (by omega)
  have e2 : ∀ p : Nat, (!decide (i < p)) = decide (p ≤ i) := fun p => by
    by_cases h : i < p <;> simp [h] ; omega
  rw [e1, e1, e1, e2, e2, e2]
  simp only [Bool.true_and]
  congr 1
  by_cases h : i = l.enPos
  · subst h; simp
  · rw [decide_eq_false h, Bool.false_and]
    by_cases h2 : l.enPos ≤ i
    · rw [BitVec.getLsbD_of_ge (BitVec.ofBool (f.en == l.enSet)) (i - l.enPos) (by omega)]; simp
    · rw [decide_eq_false h2, Bool.false_and]

/-- The sub-fields are read back as they were put in (42 R124), under every layout record whose fields are apart. -/
theorem extFieldsOf_packHigh {l : TsLayout} (h : l.wf = true) (f : ExtFields) : extFieldsOf l (packHigh l f) = f := by
  obtain ⟨mid, ext, en⟩ := f
  simp only [TsLayout.wf, Bool.and_eq_true, Bool.or_eq_true, decide_eq_true_eq] at h
  obtain ⟨⟨⟨⟨⟨h1, h2⟩, h3⟩, h4⟩, h5⟩, h6⟩ := h
  have hmid : (packHigh l ⟨mid, ext, en⟩).extractLsb' l.midPos 16 = mid := by
    apply BitVec.eq_of_getLsbD_eq
    intro i hi
    rw [BitVec.getLsbD_extractLsb', getLsbD_packHigh _ _ _ (by omega), decide_eq_true hi, Bool.true_and]
    rw [decide_eq_true (show l.midPos ≤ l.midPos + i by omega), Nat.add_sub_cancel_left,
      decide_eq_false (show ¬ l.midPos + i = l.enPos by omega)]
    by_cases he : l.extPos ≤ l.midPos + i
    · rw [BitVec.getLsbD_of_ge ext (l.midPos + i - l.extPos) (by omega)]; simp
    · rw [decide_eq_false he]; simp
  have hext : (packHigh l ⟨mid, ext, en⟩).extractLsb' l.extPos 15 = ext := by
    apply BitVec.eq_of_getLsbD_eq
    intro i hi
    rw [BitVec.getLsbD_extractLsb', getLsbD_packHigh _ _ _ (by omega), decide_eq_true hi, Bool.true_and]
    rw [decide_eq_true (show l.extPos ≤ l.extPos + i by omega), Nat.add_sub_cancel_left,
      decide_eq_false (show ¬ l.extPos + i = l.enPos by omega)]
    by_cases he : l.midPos ≤ l.extPos + i
    · rw [BitVec.getLsbD_of_ge mid (l.extPos + i - l.midPos) (by omega)]; simp
    · rw [decide_eq_false he]; simp
  have hen : ((packHigh l ⟨mid, ext, en⟩).getLsbD l.enPos == l.enSet) = en := by
    rw [getLsbD_packHigh _ _ _ h3]
    dsimp only
    have a : (decide (l.midPos ≤ l.enPos) && mid.getLsbD (l.enPos - l.midPos)) = false := by
      by_cases he : l.midPos ≤ l.enPos
      · rw [BitVec.getLsbD_of_ge mid _ (by omega)]; simp
      · rw [decide_eq_false he]; rfl
    have b : (decide (l.extPos ≤ l.enPos) && ext.getLsbD (l.enPos - l.extPos)) = false := by
      by_cases he : l.extPos ≤ l.enPos
      · rw [BitVec.getLsbD_of_ge ext _ (by omega)]; simp
      · rw [decide_eq_false he]; rfl
    rw [a, b]
    cases en <;> cases l.enSet <;> simp
  unfold extFieldsOf
  rw [hmid, hext, hen]

/-- The sub-fields of TS.SET's new high half (42 R126). -/
theorem extFieldsOf_extHigh {l : TsLayout} (h : l.wf = true) (high : Half) (ts : Word) :
    extFieldsOf l (extHigh l high ts) =
      ⟨ts.extractLsb' 32 16, if (extFieldsOf l high).en then ts.extractLsb' 48 15 else (extFieldsOf l high).ext,
        (extFieldsOf l high).en⟩ := extFieldsOf_packHigh h _

end Sys2Proof.Machine
end

