-- ==== Sys2Proof/Tests/Slice0.lean ====
section
/-! SUPPORT. The model's own tests. Expected values are those of spec/95_test_vectors.md (named per test by its
section), 30 R84 and hand calculation from the rules. Then, for every obligation with hypotheses, a concrete state and
operands that meet them. -/

namespace Sys2Proof.Tests

open Sys2Proof.Machine

/-! ### Helpers -/

/-- Eight zero bytes. -/
def z8 : List Byte := [0, 0, 0, 0, 0, 0, 0, 0]

/-- A byte followed by seven zero bytes. -/
def q (b : Byte) : List Byte := [b, 0, 0, 0, 0, 0, 0, 0]

/-- A packet of the given bytes. -/
def pkt (l : List Byte) : Bytes := Memory.ofList l

/-- A state of an instance with word width `w` and otherwise the defaults. -/
def st (w : WordSize) (ws : List Word) (buf : List Byte) : State :=
  ⟨Config.default w, Memory.ofList ws, Memory.ofList buf, [], [], []⟩

/-- An instance with a 2-byte big-endian count field (95 section 2.4). -/
def cfgBig : Config := ⟨.w32, 1, .b64, .big, .big, TsLayout.r124⟩

/-- An instance with LEN_BITS = 32 (95 section 2.4). -/
def cfg32 : Config := ⟨.w32, 7, .b32, .little, .little, TsLayout.r124⟩

/-- A state of another instance. -/
def stOf (c : Config) (buf : List Byte) : State := ⟨c, Memory.empty, Memory.ofList buf, [], [], []⟩

/-- The newest response of an answer, as status number, R1 and payload. -/
def resp : Result → Option (Nat × Word × Bytes)
  | .next t => t.responses.getLast?.map fun r => (statusCode r.status, r.r1, r.payload)
  | .fault _ => none
  | .refused _ => none

/-- WS after an answer. -/
def wsOf : Result → Option Words
  | .next t => some t.ws
  | .fault _ => none
  | .refused _ => none

/-- BUF after an answer. -/
def bufOf : Result → Option Bytes
  | .next t => some t.buf
  | .fault _ => none
  | .refused _ => none

/-- The fault of an answer. -/
def faultOf : Result → Option Fault
  | .next _ => none
  | .fault f => some f
  | .refused _ => none

/-- The refusal of an answer. -/
def refusalOf : Result → Option Refusal
  | .next _ => none
  | .fault _ => none
  | .refused r => some r

def decodesTo (p : Bytes) (i : Instr) : Bool :=
  match decode p with
  | .ok j => decide (j = i)
  | .error _ => false

def undecodable (p : Bytes) : Bool :=
  match decode p with
  | .ok _ => false
  | .error _ => true

/-- The two words the document's example works on (95 S2, 2.2). -/
def two : State := st .w32 [0x12345678, 0x9ABCDEF0] []

/-- The state with a packet to be issued next. -/
def issuing (s : State) (p : Bytes) : State := s.setInbox [.issue p]

/-- The record of 95 2.4: header A1 A2 A3 A4, children C0 C1 C2 and D0 D1 D2. -/
def record : Bytes := pkt [0xA1, 0xA2, 0xA3, 0xA4, 0xC0, 0xC1, 0xC2, 0xD0, 0xD1, 0xD2]

def ee18 : List Byte := List.replicate 18 0xEE

/-! ### Decoding, byte by byte (95 section 2.1) -/

theorem test_decode_bfGet :
    decodesTo (pkt ([0x01, 0x0E, 0, 0, 4, 0, 0, 0] ++ q 2 ++ z8 ++ z8)) (.bfGet 14 4 2) = true := by decide

theorem test_decode_bfSet :
    decodesTo (pkt ([0x02, 0x0E, 0, 0, 4, 0, 0, 0] ++ q 2 ++ [0xBC, 0x2A, 0, 0, 0, 0, 0, 0] ++ z8))
      (.bfSet 14 4 2 0x2ABC) = true := by decide

theorem test_decode_tsCompose :
    decodesTo (pkt (q 0x10 ++ [0xEF, 0xBE, 0xAD, 0xDE, 0x67, 0x45, 0x23, 0x01] ++ z8 ++ z8))
      (.tsCompose 0xDEADBEEF 0x01234567) = true := by decide

theorem test_decode_tsDecompose :
    decodesTo (pkt (q 0x11 ++ z8 ++ [0xF0, 0xDE, 0xBC, 0x9A, 0x78, 0x56, 0x34, 0x12] ++ z8))
      (.tsDecompose 0x123456789ABCDEF0) = true := by decide

theorem test_decode_tsGet :
    decodesTo (pkt ([0x12, 0x80, 0, 0, 0, 0, 0, 0] ++ [0xEF, 0xBE, 0xAD, 0xDE, 0x34, 0x12, 0x01, 0x80] ++ z8 ++ z8))
      (.tsGet .ext 0xDEADBEEF 0x80011234) = true := by decide

theorem test_decode_tsSet :
    decodesTo (pkt ([0x13, 0x80, 0, 0, 0, 0, 0, 0] ++ [0, 0, 0, 0, 0, 0, 0xBC, 0x1A] ++ List.replicate 8 0xFF ++ z8))
      (.tsSet .ext 0 0x1ABC0000 0xFFFFFFFFFFFFFFFF) = true := by decide

theorem test_decode_ovSize :
    decodesTo (pkt (q 0x20 ++ q 4 ++ q 2 ++ q 3)) (.ovSize 4 2 3) = true := by decide

theorem test_decode_ovWrite :
    decodesTo (pkt (q 0x21 ++ q 4 ++ q 2 ++ q 3 ++ [0xA1, 0xA2, 0xA3, 0xA4, 0xC0, 0xC1, 0xC2, 0xD0, 0xD1, 0xD2]))
      (.ovWrite 4 2 3 record) = true := by decide

theorem test_decode_ovRead :
    decodesTo (pkt (q 0x22 ++ q 4 ++ z8 ++ q 3)) (.ovRead 4 3) = true := by decide

theorem test_encode_bfSet :
    encode (.bfSet 14 4 2 0x2ABC) =
      pkt ([0x02, 0x0E, 0, 0, 4, 0, 0, 0] ++ q 2 ++ [0xBC, 0x2A, 0, 0, 0, 0, 0, 0] ++ z8) := by decide

/-! ### Illegal encodings (95 section 2.1) -/

theorem test_illegal_op00 : undecodable (pkt (z8 ++ z8 ++ z8 ++ z8)) = true := by decide
theorem test_illegal_op03 : undecodable (pkt (q 0x03 ++ z8 ++ z8 ++ z8)) = true := by decide
theorem test_illegal_rsv : undecodable (pkt ([0x01, 0x0E, 1, 0, 4, 0, 0, 0] ++ z8 ++ z8 ++ z8)) = true := by decide
theorem test_illegal_var : undecodable (pkt ([0x01, 0x8E, 0, 0, 4, 0, 0, 0] ++ z8 ++ z8 ++ z8)) = true := by decide
theorem test_illegal_q2 : undecodable (pkt ([0x01, 0x0E, 0, 0, 4, 0, 0, 0] ++ z8 ++ q 1 ++ z8)) = true := by decide
theorem test_illegal_payload :
    undecodable (pkt ([0x01, 0x0E, 0, 0, 4, 0, 0, 0] ++ z8 ++ z8 ++ z8 ++ [0])) = true := by decide
theorem test_illegal_q1 : undecodable (pkt (q 0x11 ++ q 1 ++ z8 ++ z8)) = true := by decide
theorem test_illegal_ns : undecodable (pkt ([0x13, 0, 0, 0, 1, 0, 0, 0] ++ z8 ++ z8 ++ z8)) = true := by decide
theorem test_illegal_bw : undecodable (pkt ([0x20, 0x0E, 0, 0, 0, 0, 0, 0] ++ z8 ++ z8 ++ z8)) = true := by decide
theorem test_illegal_answer :
    resp (step (issuing two (pkt (z8 ++ z8 ++ z8 ++ z8)))) = some (5, 0, Memory.empty) := by decide

/-! ### WellFormed: an ill-formed term for each check, which the check refuses (30 R79) -/

theorem test_wf_width_zero : (Instr.bfGet 0 4 0).wellFormed = false := by decide
theorem test_wf_width_65 : (Instr.bfSet 65 1 0 0).wellFormed = false := by decide
theorem test_wf_width_64 : (Instr.bfSet 64 1 0 0).wellFormed = true := by decide
theorem test_wf_child_size_write : (Instr.ovWrite 4 2 0 (pkt [1, 2, 3, 4])).wellFormed = false := by decide
theorem test_wf_child_size_read : (Instr.ovRead 4 0).wellFormed = false := by decide
theorem test_wf_payload_length : (Instr.ovWrite 4 2 3 (pkt [1, 2, 3, 4])).wellFormed = false := by decide
theorem test_wf_payload_form : (Instr.ovWrite 0 1 1 ⟨1, [(0, 0)]⟩).wellFormed = false := by decide
theorem test_wf_write : (Instr.ovWrite 4 2 3 record).wellFormed = true := by decide

/-! ### bit_field_codec (95 S1, S2, section 2.2) -/

/-- 95 2.2: the sample crosses: 0x2F0 above 0x1. -/
theorem test_bfGet_crossing : resp (exec (.bfGet 14 4 2) two) = some (0, 0x2F01, Memory.empty) := by decide

/-- 95 2.2: the full word of a 64-bit instance. -/
theorem test_bfGet_full_word :
    resp (exec (.bfGet 64 1 0) (st .w64 [0x0123456789ABCDEF] [])) =
      some (0, 0x0123456789ABCDEF, Memory.empty) := by decide

/-- 95 S2, third line: neighbours and unpacked bits keep. -/
theorem test_bfSet_crossing :
    wsOf (exec (.bfSet 14 4 2 0) two) = some (Memory.ofList [0x02345678, 0x9ABCDC00]) := by decide

/-- 95 2.2: a crossing sample of a 64-bit instance. -/
theorem test_bfSet_w64 :
    wsOf (exec (.bfSet 14 9 4 0x2ABC) (st .w64 [0, 0] [])) =
      some (Memory.ofList [0xBC00000000000000, 0x2A]) := by decide

/-- 95 2.2, failures: which error is reported. -/
theorem test_bf_errors :
    resp (exec (.bfSet 14 4 4 0x4000) two) = some (1, 0, Memory.empty) ∧
    resp (exec (.bfSet 14 4 0 0x4000) two) = some (2, 0, Memory.empty) ∧
    resp (exec (.bfSet 14 5 7 0x4000) two) = some (5, 0, Memory.empty) ∧
    resp (exec (.bfGet 14 0 0) two) = some (1, 0, Memory.empty) ∧
    resp (exec (.bfGet 33 1 0) two) = some (5, 0, Memory.empty) := by decide

/-! ### timestamp_codec (95 section 2.3) -/

theorem test_tsCompose :
    resp (exec (.tsCompose 0xDEADBEEF 0x01234567) two) = some (0, 0x01234567DEADBEEF, Memory.empty) := by decide

theorem test_tsDecompose :
    resp (exec (.tsDecompose 0x123456789ABCDEF0) two) = some (0, 0x123456789ABCDEF0, Memory.empty) := by decide

theorem test_tsGet_enabled :
    resp (exec (.tsGet .ext 0xDEADBEEF 0x80011234) two) = some (0, 0x00011234DEADBEEF, Memory.empty) := by decide

theorem test_tsGet_disabled :
    resp (exec (.tsGet .ext 0xDEADBEEF 0x00011234) two) = some (0, 0x00001234DEADBEEF, Memory.empty) := by decide

theorem test_tsSet_enabled :
    resp (exec (.tsSet .ext 0 0xFFFF0000 0x000000123456789A) two) =
      some (0, 0x800000123456789A, Memory.empty) := by decide

theorem test_tsSet_disabled :
    resp (exec (.tsSet .ext 0 0x1ABC0000 0xFFFFFFFFFFFFFFFF) two) =
      some (0, 0x1ABCFFFFFFFFFFFF, Memory.empty) := by decide

/-! ### overlay_serializer (95 S6, section 2.4) -/

theorem test_ovSize :
    resp (exec (.ovSize 16 5 24) two) = some (0, 144, Memory.empty) ∧
    resp (exec (.ovSize 0xFFFFFFFFFFFFFFF7 0 1) two) = some (0, 0xFFFFFFFFFFFFFFFF, Memory.empty) := by decide

theorem test_ovSize_overflow :
    resp (exec (.ovSize 0 0xFFFFFFFFFFFFFFFF 1) two) = some (4, 0, Memory.empty) ∧
    resp (exec (.ovSize 0 0x2000000000000000 8) two) = some (4, 0, Memory.empty) ∧
    resp (exec (.ovSize 0 0x10000 0x10000) (stOf cfg32 [])) = some (4, 0, Memory.empty) := by decide

theorem test_ovWrite :
    bufOf (exec (.ovWrite 4 2 3 record) (st .w32 [] (ee18 ++ [0xEE, 0xEE]))) =
      some (Memory.ofList [0xA1, 0xA2, 0xA3, 0xA4, 2, 0, 0, 0, 0, 0, 0, 0, 0xC0, 0xC1, 0xC2, 0xD0, 0xD1, 0xD2,
        0xEE, 0xEE]) := by decide

/-- A 2-byte big-endian count. -/
theorem test_ovWrite_big :
    bufOf (exec (.ovWrite 1 2 2 (pkt [0xA1, 0xC0, 0xC1, 0xD0, 0xD1])) (stOf cfgBig (List.replicate 10 0xEE))) =
      some (Memory.ofList [0xA1, 0x00, 0x02, 0xC0, 0xC1, 0xD0, 0xD1, 0xEE, 0xEE, 0xEE]) := by decide

theorem test_ovRead_big :
    resp (exec (.ovRead 1 2) (stOf cfgBig [0xA1, 0x00, 0x02, 0xC0, 0xC1, 0xD0, 0xD1, 0xEE, 0xEE, 0xEE])) =
      some (0, 2, pkt [0xA1, 0xC0, 0xC1, 0xD0, 0xD1]) := by decide

/-- 95 S6: the stored count claims one child more than the buffer holds. -/
theorem test_ovRead_malformed :
    resp (exec (.ovRead 4 3)
      (st .w32 [] [0xA1, 0xA2, 0xA3, 0xA4, 2, 0, 0, 0, 0, 0, 0, 0, 0xC0, 0xC1, 0xC2])) =
      some (3, 0, Memory.empty) := by decide

/-! ### The host's side -/

/-- 95 2.3, the byte-level instance of a response (30 R73). -/
theorem test_response_bytes :
    responsePacket ⟨.ok, 0x1ABCFFFFFFFFFFFF, Memory.empty⟩ =
      pkt (z8 ++ [0xFF, 0xFF, 0xFF, 0xFF, 0xFF, 0xFF, 0xBC, 0x1A]) := by decide

/-- 30 R70: 31 bytes are no packet. -/
theorem test_short_packet_refused :
    refusalOf (step (issuing two (pkt (List.replicate 31 1)))) = some .notAPacket := by decide

/-- 20 R50: there is no word 2. -/
theorem test_absent_word_faults : faultOf (step (two.setInbox [.readWord 2])) = some (.wsAddress 2) := by decide

/-- 20 R50: nor can the host write word 2, nor byte 0 of a BUF of no bytes. -/
theorem test_absent_write_faults :
    faultOf (step (two.setInbox [.writeWord 2 7])) = some (.wsAddress 2) ∧
    faultOf (step (two.setInbox [.writeByte 0 7])) = some (.bufAddress 0) := by decide

/-- 20 R42: byte 0 of WS under both byte orders. -/
theorem test_storageByte :
    two.storageByte 0 = 0x78 ∧ (State.mk cfgBig two.ws two.buf [] [] []).storageByte 0 = 0x12 := by decide

/-- The host's table words: the row's match alone. -/
theorem test_table_word : decodeTableWord 256 0x12 = some (.tsGet .plain 0 0) := by decide

theorem test_table_step : resp (step (State.reset.withFetchWord 256 0x20)) = some (0, 8, Memory.empty) := by decide

/-! ### Witnesses: the hypotheses of each obligation can be met -/

/-- A state whose BUF holds the record of 95 2.4. -/
def recorded : State :=
  st .w32 [] [0xA1, 0xA2, 0xA3, 0xA4, 2, 0, 0, 0, 0, 0, 0, 0, 0xC0, 0xC1, 0xC2, 0xD0, 0xD1, 0xD2]

/-- The same record in a BUF of one child less (95 S6). -/
def truncated : State := st .w32 [] [0xA1, 0xA2, 0xA3, 0xA4, 2, 0, 0, 0, 0, 0, 0, 0, 0xC0, 0xC1, 0xC2]

/-- A layout record with the fields in another order and the flag inverted. -/
def otherLayout : TsLayout := ⟨16, 1, 0, false⟩

/-- The answer is a next state of which `p` holds. -/
def nextIs (r : Result) (p : State → Bool) : Bool :=
  match r with
  | .next t => p t
  | .fault _ => false
  | .refused _ => false

theorem witness_DecodeOfEncode : (Instr.ovWrite 4 2 3 record).payload.wf = true := by decide

theorem witness_EncodeOfDecode :
    (pkt (q 0x20 ++ q 4 ++ q 2 ++ q 3)).wf = true ∧
    decodesTo (pkt (q 0x20 ++ q 4 ++ q 2 ++ q 3)) (.ovSize 4 2 3) = true := by decide

/-- What the obligation asks of the state and the packet, before its list of the ways to be illegal. -/
theorem witness_ReservedSpaceIsIllegal :
    (issuing two (pkt (q 0x03 ++ z8 ++ z8 ++ z8))).inbox = [.issue (pkt (q 0x03 ++ z8 ++ z8 ++ z8))] ∧
    (pkt (q 0x03 ++ z8 ++ z8 ++ z8)).wf = true ∧ 32 ≤ (pkt (q 0x03 ++ z8 ++ z8 ++ z8)).len ∧
    fieldOP (descriptorOf (pkt (q 0x03 ++ z8 ++ z8 ++ z8))) = 0x03 := by decide

theorem witness_ReservedSpaceIsIllegal_fields :
    (descriptorOf (pkt ([0x01, 0x0E, 1, 0, 4, 0, 0, 0] ++ z8 ++ z8 ++ z8))).extractLsb' 16 16 ≠ 0 ∧
    fieldBW (descriptorOf (pkt ([0x20, 0x0E, 0, 0, 0, 0, 0, 0] ++ z8 ++ z8 ++ z8))) ≠ 0 ∧
    fieldNS (descriptorOf (pkt ([0x13, 0, 0, 0, 1, 0, 0, 0] ++ z8 ++ z8 ++ z8))) ≠ 0 ∧
    (descriptorOf (pkt ([0x10, 0x80, 0, 0, 0, 0, 0, 0] ++ q 5 ++ z8 ++ z8))).getLsbD 15 = true ∧
    fieldQ1 (descriptorOf (pkt (q 0x11 ++ q 1 ++ z8 ++ z8))) ≠ 0 ∧
    fieldQ2 (descriptorOf (pkt (q 0x12 ++ z8 ++ q 1 ++ z8))) ≠ 0 ∧
    fieldQ3 (descriptorOf (pkt (q 0x10 ++ z8 ++ z8 ++ q 1))) ≠ 0 ∧
    (pkt (q 0x10 ++ z8 ++ z8 ++ z8 ++ [0])).len ≠ 32 ∧
    two.cfg.W < (fieldBW (descriptorOf (pkt ([0x01, 0x21, 0, 0, 1, 0, 0, 0] ++ z8 ++ z8 ++ z8)))).toNat := by decide

theorem witness_StepRunsDecodedCommand :
    (issuing two (encode (.bfGet 14 4 2))).inbox = [.issue (encode (.bfGet 14 4 2))] ∧
    (encode (.bfGet 14 4 2)).wf = true ∧ 32 ≤ (encode (.bfGet 14 4 2)).len ∧
    decodesTo (encode (.bfGet 14 4 2)) (.bfGet 14 4 2) = true := by decide

theorem witness_UndecodablePacketIsIllegal :
    (issuing two (pkt (z8 ++ z8 ++ z8 ++ z8))).inbox = [.issue (pkt (z8 ++ z8 ++ z8 ++ z8))] ∧
    (pkt (z8 ++ z8 ++ z8 ++ z8)).wf = true ∧ 32 ≤ (pkt (z8 ++ z8 ++ z8 ++ z8)).len ∧
    undecodable (pkt (z8 ++ z8 ++ z8 ++ z8)) = true := by decide

/-- Both sides of each equivalence at a boundary: N * B = 64 is legal and 70 is not; a child of one byte is. -/
theorem witness_ValueLegality :
    resp (exec (.bfGet 32 2 0) two) = some (0, 0x12345678, Memory.empty) ∧
    resp (exec (.bfGet 14 5 0) two) = some (5, 0, Memory.empty) ∧
    resp (exec (.ovRead 4 1) recorded) = some (0, 2, pkt [0xA1, 0xA2, 0xA3, 0xA4, 0xC0, 0xC1]) ∧
    resp (exec (.ovRead 4 0) recorded) = some (5, 0, Memory.empty) ∧
    32 < (pkt (q 0x10 ++ z8 ++ z8 ++ z8 ++ [0])).len ∧
    fieldOP (descriptorOf (pkt (q 0x10 ++ z8 ++ z8 ++ z8 ++ [0]))) ≠ 0x21 := by decide

theorem witness_IllFormedCommandIsIllegal :
    (Instr.ovWrite 4 2 3 (pkt [1])).payload.wf = true ∧ (Instr.ovWrite 4 2 3 (pkt [1])).wellFormed = false := by decide

theorem witness_ResponsePacketBytes : (Response.mk .ok 2 record).payload.wf = true := by decide

theorem witness_SamplePositionFacts :
    1 ≤ 32 ∧ 32 ≤ two.cfg.W ∧ 32 ∣ two.cfg.W ∧ samplePosition two.cfg.W 14 2 = ⟨0, 28, 4, 10⟩ := by decide

/-- One state and operands for each clause: illegal, index, value, legal (crossing, in the last words). -/
theorem witness_FieldChecks :
    legalField 14 5 two = false ∧
    (legalField 14 4 two = true ∧ (4 : BitVec 32).toNat ≤ (4 : Word).toNat) ∧
    (legalField 14 4 two = true ∧ (3 : Word).toNat < (4 : BitVec 32).toNat ∧
      2 ^ (14 : BitVec 7).toNat ≤ (0x4000 : Word).toNat) ∧
    (legalField 14 4 two = true ∧ (2 : Word).toNat < (4 : BitVec 32).toNat ∧
      0 < (samplePosition two.cfg.W 14 2).remainderBits) := by decide

theorem witness_BitStringCharacterisation :
    two.wf = true ∧ 1 ≤ (32 : BitVec 7).toNat ∧ (32 : BitVec 7).toNat ≤ two.cfg.W ∧
    (2 : BitVec 32).toNat * (32 : BitVec 7).toNat ≤ two.cfg.W * two.ws.len ∧
    (1 : Word).toNat < (2 : BitVec 32).toNat ∧ (0xFFFFFFFF : Word).toNat < 2 ^ (32 : BitVec 7).toNat := by decide

theorem witness_BfSetFrame :
    two.wf = true ∧ nextIs (exec (.bfSet 14 4 2 0) two) (fun t => decide (t.ws ≠ two.ws)) = true := by decide

theorem witness_SetThenGet :
    two.wf = true ∧ legalField 14 4 two = true ∧ (2 : Word).toNat < (4 : BitVec 32).toNat ∧
    (0x3FFF : Word).toNat < 2 ^ (14 : BitVec 7).toNat := by decide

theorem witness_SamplesAreIndependent :
    two.wf = true ∧ legalField 14 4 two = true ∧ (2 : Word).toNat < (4 : BitVec 32).toNat ∧
    (3 : Word).toNat < (4 : BitVec 32).toNat ∧ (3 : Word) ≠ 2 ∧
    (0x3FFF : Word).toNat < 2 ^ (14 : BitVec 7).toNat := by decide

/-- A sample that does not cross, in a stream whose other word differs; and one that crosses. -/
theorem witness_BfGetReadsOnlyItsWords :
    (Memory.ofList [0x12345678, 7] : Words).len = two.ws.len ∧
    (Memory.ofList [0x12345678, 7] : Words).get (samplePosition two.cfg.W 14 0).wordIndex =
      two.ws.get (samplePosition two.cfg.W 14 0).wordIndex ∧
    (samplePosition two.cfg.W 14 0).remainderBits = 0 ∧ 0 < (samplePosition two.cfg.W 14 2).remainderBits := by decide

theorem witness_StorageByteOrder :
    two.cfg.wordOrder = .little ∧ (State.mk cfgBig two.ws two.buf [] [] []).cfg.wordOrder = .big := by decide

theorem witness_TsGetResult : two.cfg.tsLayout = TsLayout.r124 := by decide

theorem witness_TsSetResult : (stOf cfgBig []).cfg.tsLayout = TsLayout.r124 := by decide

theorem witness_TimestampInvariants :
    two.cfg.tsLayout = TsLayout.r124 ∧ (0x1ABC0000 : Half).getLsbD 31 = false ∧
    (0x80000000 : Half).getLsbD 31 = true := by decide

theorem witness_TimestampInvariantsAnyLayout :
    TsLayout.r124.wf = true ∧ otherLayout.wf = true ∧ (extFieldsOf otherLayout 1).en = false ∧
    (extFieldsOf otherLayout 0).en = true := by decide

theorem witness_CountFieldConversion :
    65535 < 2 ^ (8 * cfgBig.countBytes) ∧ cfgBig.countOrder = .big ∧ (Config.default .w64).countOrder = .little ∧
    (pkt [0x01, 0x02]).wf = true ∧ (pkt [0x01, 0x02]).len = cfgBig.countBytes ∧
    decCount cfgBig (pkt [0x01, 0x02]) = 0x0102 := by decide

/-- The largest size that fits, and the smallest that does not. -/
theorem witness_OvSizeResult :
    (0xFFFFFFFFFFFFFFF7 : Word).toNat + two.cfg.countBytes + (0 : Word).toNat * (1 : Word).toNat <
      2 ^ two.cfg.lenBits.bits ∧
    2 ^ two.cfg.lenBits.bits ≤
      (0xFFFFFFFFFFFFFFF8 : Word).toNat + two.cfg.countBytes + (0 : Word).toNat * (1 : Word).toNat := by decide

theorem witness_OvWriteResult_stored :
    recorded.wf = true ∧ record.wf = true ∧ 1 ≤ (3 : Word).toNat ∧
    record.len = (4 : Word).toNat + (2 : Word).toNat * (3 : Word).toNat ∧
    (2 : Word).toNat < 2 ^ (8 * recorded.cfg.countBytes) ∧
    recordSize recorded.cfg 4 2 3 < 2 ^ recorded.cfg.lenBits.bits ∧
    recordSize recorded.cfg 4 2 3 ≤ recorded.buf.len := by decide

theorem witness_OvWriteResult_short :
    truncated.wf = true ∧ recordSize truncated.cfg 4 2 3 < 2 ^ truncated.cfg.lenBits.bits ∧
    truncated.buf.len < recordSize truncated.cfg 4 2 3 := by decide

/-- 95 2.4: 65536 children of one byte against a 2-byte count field. -/
theorem witness_OvWriteResult_count :
    (stOf cfgBig []).wf = true ∧ (⟨65536, []⟩ : Bytes).wf = true ∧
    (⟨65536, []⟩ : Bytes).len = (0 : Word).toNat + (65536 : Word).toNat * (1 : Word).toNat ∧
    2 ^ (8 * (stOf cfgBig []).cfg.countBytes) ≤ (65536 : Word).toNat := by decide

theorem witness_OvWriteResult_overflow :
    (stOf cfg32 []).wf = true ∧ (⟨0x100000000, []⟩ : Bytes).wf = true ∧
    (⟨0x100000000, []⟩ : Bytes).len = (0x100000000 : Word).toNat + (0 : Word).toNat * (1 : Word).toNat ∧
    (0 : Word).toNat < 2 ^ (8 * cfg32.countBytes) ∧
    2 ^ cfg32.lenBits.bits ≤ recordSize cfg32 (0x100000000 : Word).toNat (0 : Word).toNat (1 : Word).toNat := by decide

theorem witness_OvWriteResult_illegal :
    recorded.wf = true ∧ record.wf = true ∧ (0 : Word).toNat = 0 ∧
    record.len ≠ (4 : Word).toNat + (3 : Word).toNat * (3 : Word).toNat := by decide

/-- The five ways OV.READ can end, each at its hypotheses. -/
theorem witness_OvReadResult :
    recorded.wf = true ∧ truncated.wf = true ∧ 1 ≤ (3 : Word).toNat ∧
    2 ^ recorded.cfg.lenBits.bits ≤ (0xFFFFFFFFFFFFFFF8 : Word).toNat + recorded.cfg.countBytes ∧
    ((11 : Word).toNat + recorded.cfg.countBytes < 2 ^ recorded.cfg.lenBits.bits ∧
      recorded.buf.len < (11 : Word).toNat + recorded.cfg.countBytes) ∧
    ((4 : Word).toNat + recorded.cfg.countBytes ≤ recorded.buf.len ∧ 2 ^ recorded.cfg.lenBits.bits ≤
      recordSize recorded.cfg 4 (storedCount recorded 4) (0x8000000000000000 : Word).toNat) ∧
    (recordSize truncated.cfg 4 (storedCount truncated 4) 3 < 2 ^ truncated.cfg.lenBits.bits ∧
      truncated.buf.len < recordSize truncated.cfg 4 (storedCount truncated 4) 3) ∧
    recordSize recorded.cfg 4 (storedCount recorded 4) 3 ≤ recorded.buf.len := by decide

theorem witness_WriteThenRead :
    (st .w32 [] ee18).wf = true ∧ record.wf = true ∧
    nextIs (exec (.ovWrite 4 2 3 record) (st .w32 [] ee18)) (fun t => decide (t.lastStatus = some .ok)) = true := by
  decide

theorem witness_MalformedOverlay :
    1 ≤ (3 : Word).toNat ∧ truncated.buf.len < recordSize truncated.cfg 4 (storedCount truncated 4) 3 ∧
    1 ≤ storedCount truncated 4 ∧
    truncated.buf.len = recordSize truncated.cfg 4 (storedCount truncated 4 - 1) 3 ∧
    recordSize truncated.cfg 4 (storedCount truncated 4) 3 < 2 ^ truncated.cfg.lenBits.bits := by decide

/-- A record with bytes above it that differ in the other buffer. -/
theorem witness_OvReadReadsOnlyTheRecord :
    (pkt [0xA1, 0, 1, 0xC0, 0x55]).wf = true ∧ (pkt [0xA1, 0, 1, 0xC0, 0x66]).wf = true ∧
    (∀ a, a < (1 : Word).toNat + cfgBig.countBytes →
      (pkt [0xA1, 0, 1, 0xC0, 0x66]).get a = (pkt [0xA1, 0, 1, 0xC0, 0x55]).get a) ∧
    (∀ a, a < recordSize cfgBig 1 (storedCount (stOf cfgBig [0xA1, 0, 1, 0xC0, 0x55]) 1) 1 →
      (pkt [0xA1, 0, 1, 0xC0, 0x66]).get a = (pkt [0xA1, 0, 1, 0xC0, 0x55]).get a) ∧
    (pkt [0xA1, 0, 1, 0xC0, 0x66]).len = (stOf cfgBig [0xA1, 0, 1, 0xC0, 0x55]).buf.len := by decide

/-- A BUF of exactly the size, and one of a byte less. -/
theorem witness_SizingLaw :
    (st .w32 [] ee18).wf = true ∧ (st .w32 [] ee18.tail).wf = true ∧ record.wf = true ∧ 1 ≤ (3 : Word).toNat ∧
    record.len = (4 : Word).toNat + (2 : Word).toNat * (3 : Word).toNat ∧
    (2 : Word).toNat < 2 ^ (8 * (st .w32 [] ee18).cfg.countBytes) ∧
    nextIs (exec (.ovSize 4 2 3) (st .w32 [] ee18))
      (fun t => decide (t = (st .w32 [] ee18).respond .ok 18 Memory.empty)) = true ∧
    nextIs (exec (.ovSize 4 2 3) (st .w32 [] ee18.tail))
      (fun t => decide (t = (st .w32 [] ee18.tail).respond .ok 18 Memory.empty)) = true ∧
    (st .w32 [] ee18).buf.len = (18 : Word).toNat ∧
    (st .w32 [] ee18.tail).buf.len + 1 = (18 : Word).toNat := by decide

theorem witness_ReadingCommandsStoreNothing :
    (Instr.bfGet 14 4 2).opcode ≠ .bfSet ∧ (Instr.bfGet 14 4 2).opcode ≠ .ovWrite := by decide

/-- Commands that fail with each of the five errors. -/
theorem witness_FailedCommandsLeaveNoTrace :
    resp (exec (.bfGet 14 4 4) two) = some (1, 0, Memory.empty) ∧
    resp (exec (.bfSet 14 4 0 0x4000) two) = some (2, 0, Memory.empty) ∧
    resp (exec (.ovRead 4 3) truncated) = some (3, 0, Memory.empty) ∧
    resp (exec (.ovSize 0 0xFFFFFFFFFFFFFFFF 1) two) = some (4, 0, Memory.empty) ∧
    resp (exec (.bfGet 0 4 0) two) = some (5, 0, Memory.empty) := by decide

/-- OV.WRITE reaches ValueOutOfRange on a 2-byte count field. -/
theorem witness_StatusTable :
    resp (exec (.ovWrite 0 65536 1 ⟨65536, []⟩) (stOf cfgBig [])) = some (2, 0, Memory.empty) ∧
    cfgBig.countBytes < 8 := by decide

/-- Two states that differ in their history only. -/
theorem witness_NoHiddenState :
    two.cfg = (two.raise .illegalCommand).cfg ∧ two.ws = (two.raise .illegalCommand).ws ∧
    two.buf = (two.raise .illegalCommand).buf ∧ two ≠ two.raise .illegalCommand := by decide

theorem witness_RecoveryAfterError :
    nextIs (exec (.bfGet 14 4 4) two) (fun t => decide (t.lastStatus = some (.error .indexOutOfRange))) = true := by
  decide

theorem witness_RepeatingChangesNothing :
    two.wf = true ∧ (Instr.bfSet 14 4 2 0).payload.wf = true ∧
    nextIs (exec (.bfSet 14 4 2 0) two) (fun t => decide (t.responses = two.responses ++ [⟨.ok, 0, Memory.empty⟩])) =
      true := by decide

theorem witness_StepKeepsStateWellFormed :
    (issuing two (encode (.bfSet 14 4 2 0))).wf = true ∧
    nextIs (step (issuing two (encode (.bfSet 14 4 2 0)))) (fun t => decide (t.ws ≠ two.ws)) = true := by decide

theorem witness_ResetIsIdleAndWellFormed : (Config.default .w64).tsLayout.wf = true := by decide

theorem witness_ResetChangesNothing : (two.setInbox [.reset]).inbox = [.reset] := by decide

theorem witness_BlockActsOnlyOnCommands :
    (two.setInbox [.writeWord 0 7]).inbox.head?.map HostAction.isCommand ≠ some true ∧
    nextIs (step (two.setInbox [.writeWord 0 7])) (fun t => decide (t.ws ≠ two.ws)) = true ∧
    two.inbox.head?.map HostAction.isCommand ≠ some true ∧ two.inbox = [] := by decide

/-- The first words past the end, a response to take, and memories to attach. -/
theorem witness_HostMoves :
    ((two.raise .illegalCommand).setInbox [.takeResponse]).responses = [⟨.error .illegalCommand, 0, Memory.empty⟩] ∧
    isWordStream two.cfg (Memory.ofList [0xFFFFFFFF]) = true ∧ isBuffer record = true ∧ two.ws.len ≤ 2 ∧
    (0xFFFFFFFF : Word).toNat < 2 ^ two.cfg.W ∧ two.buf.len ≤ 0 := by decide

theorem witness_HostWritesAreSeen :
    (State.mk two.cfg two.ws record [.writeWord 1 0xFFFFFFFF, .readWord 0] [] []).wf = true ∧ 1 < two.ws.len ∧
    0 < two.ws.len ∧ (0xFFFFFFFF : Word).toNat < 2 ^ two.cfg.W ∧
    (State.mk two.cfg two.ws record [.writeByte 9 0xFF, .readByte 9] [] []).wf = true ∧ 9 < record.len := by decide

theorem witness_UnattachedMemories :
    (stOf cfgBig []).ws.len = 0 ∧ (stOf cfgBig []).buf.len = 0 ∧ 1 ≤ (32 : BitVec 7).toNat ∧
    (32 : BitVec 7).toNat ≤ (stOf cfgBig []).cfg.W ∧ 1 ≤ (1 : BitVec 32).toNat ∧ (0 : BitVec 32).toNat = 0 ∧
    record.len = (4 : Word).toNat + (2 : Word).toNat * (3 : Word).toNat ∧ 1 ≤ (3 : Word).toNat ∧
    (2 : Word).toNat < 2 ^ (8 * cfgBig.countBytes) := by decide

theorem witness_RunAnswersEveryPacket :
    (∀ p ∈ [encode (.bfGet 14 4 2), pkt (z8 ++ z8 ++ z8 ++ z8)], p.wf = true ∧ 32 ≤ p.len) ∧
    (two.setInbox [.issue (encode (.bfGet 14 4 2)), .issue (pkt (z8 ++ z8 ++ z8 ++ z8))]).inbox =
      [encode (.bfGet 14 4 2), pkt (z8 ++ z8 ++ z8 ++ z8)].map .issue := by decide

end Sys2Proof.Tests
end

section
/-! PROOFS. What every step keeps (StepKeepsStateWellFormed), and the bytes of the count field
(CountFieldConversion). -/

namespace Sys2Proof.Machine

/-! ### Well-formedness, one lemma per update of the state -/

theorem State.wf_iff {s : State} :
    s.wf = true ↔ s.cfg.tsLayout.wf = true ∧ isWordStream s.cfg s.ws = true ∧ isBuffer s.buf = true ∧
      s.responses.all Response.wf = true ∧ s.observed.all Observation.wf = true := by
  simp only [State.wf, Bool.and_eq_true, and_assoc]

@[simp] theorem State.setInbox_wf (s : State) (l : List HostAction) : (s.setInbox l).wf = s.wf := rfl

theorem State.setWs_wf {s : State} (hs : s.wf = true) {m : Words} (hm : isWordStream s.cfg m = true) :
    (s.setWs m).wf = true := by
  obtain ⟨hlayout, -, hbuf, hresp, hobs⟩ := State.wf_iff.1 hs
  exact State.wf_iff.2 ⟨hlayout, hm, hbuf, hresp, hobs⟩

theorem State.setBuf_wf {s : State} (hs : s.wf = true) {m : Bytes} (hm : isBuffer m = true) :
    (s.setBuf m).wf = true := by
  obtain ⟨hlayout, hws, -, hresp, hobs⟩ := State.wf_iff.1 hs
  exact State.wf_iff.2 ⟨hlayout, hws, hm, hresp, hobs⟩

theorem State.setResponses_wf {s : State} (hs : s.wf = true) {l : List Response} (hl : l.all Response.wf = true) :
    (s.setResponses l).wf = true := by
  obtain ⟨hlayout, hws, hbuf, -, hobs⟩ := State.wf_iff.1 hs
  exact State.wf_iff.2 ⟨hlayout, hws, hbuf, hl, hobs⟩

theorem State.observe_wf {s : State} (hs : s.wf = true) {o : Observation} (ho : o.wf = true) :
    (s.observe o).wf = true := by
  obtain ⟨hlayout, hws, hbuf, hresp, hobs⟩ := State.wf_iff.1 hs
  exact State.wf_iff.2 ⟨hlayout, hws, hbuf, hresp, by simp [hobs, ho]⟩

theorem State.respond_wf {s : State} (hs : s.wf = true) {st : Status} {r1 : Word} {p : Bytes}
    (hr : (Response.mk st r1 p).wf = true) : (s.respond st r1 p).wf = true := by
  obtain ⟨-, -, -, hresp, -⟩ := State.wf_iff.1 hs
  exact State.setResponses_wf hs (by simp [hresp, hr])

theorem State.raise_wf {s : State} (hs : s.wf = true) (e : CmdError) : (s.raise e).wf = true :=
  State.respond_wf hs (by simp [Response.wf])

/-- One word of WS replaced by a W-bit word (10 R26). -/
theorem isWordStream_set {cfg : Config} {ws : Words} (hws : isWordStream cfg ws = true) {k : Nat} (hk : k < ws.len)
    {v : Word} (hv : v.toNat < 2 ^ cfg.W) : isWordStream cfg (ws.set k v) = true := by
  obtain ⟨hwf, hlen, hnarrow⟩ := isWordStream_iff.1 hws
  refine isWordStream_iff.2 ⟨Memory.set_wf hwf v hk, hlen, fun j => ?_⟩
  rw [Memory.get_set hwf]
  split
  · exact hv
  · exact hnarrow j

theorem isBuffer_overwrite {buf p : Bytes} (hb : isBuffer buf = true) (hp : p.wf = true) {a : Nat}
    (ha : a + p.len ≤ buf.len) : isBuffer (buf.overwrite a p) = true := by
  obtain ⟨hwf, hlen⟩ := isBuffer_iff.1 hb
  exact isBuffer_iff.2 ⟨Memory.overwrite_wf hwf hp ha, hlen⟩

/-! ### What it takes for an accessor to answer with a next state -/

/-- A guarded outcome that is a next state passed its guard, where the other branch stops the machine. -/
theorem next_of_ite {c : Prop} [Decidable c] {x stop : Result} {t : State}
    (h : (if c then x else stop) = .next t) (hstop : stop ≠ .next t) : c ∧ x = .next t := by
  split at h
  · exact ⟨‹_›, h⟩
  · exact absurd h hstop

theorem readWs_next {s t : State} {k : Nat} {f : Word → Result} (h : readWs s k f = .next t) :
    k < s.ws.len ∧ f (s.ws.get k) = .next t := by
  rw [readWs] at h
  exact next_of_ite h nofun

theorem writeWs_next {s t : State} {k : Nat} {v : Word} {f : State → Result} (h : writeWs s k v f = .next t) :
    k < s.ws.len ∧ f (s.setWs (s.ws.set k v)) = .next t := by
  rw [writeWs] at h
  exact next_of_ite h nofun

theorem memRead_next {s t : State} {a n : Nat} {f : Bytes → Result} (h : memRead s a n f = .next t) :
    a + n ≤ s.buf.len ∧ f (s.buf.slice a n) = .next t := by
  rw [memRead] at h
  exact next_of_ite h nofun

theorem memWrite_next {s t : State} {a : Nat} {p : Bytes} {f : State → Result} (h : memWrite s a p f = .next t) :
    a + p.len ≤ s.buf.len ∧ f (s.setBuf (s.buf.overwrite a p)) = .next t := by
  rw [memWrite] at h
  exact next_of_ite h nofun

/-! ### Every command, packet, move and step keeps the state well formed -/

/-- A command fails with a bare error, or ends with OK and memories and a payload that are well formed again. -/
theorem exec_keeps_wf {i : Instr} {s t : State} (hs : s.wf = true) (hi : i.payload.wf = true)
    (h : exec i s = .next t) : t.wf = true := by
  obtain ⟨hlayout, hws, hbuf, hresp, hobs⟩ := State.wf_iff.1 hs
  obtain ⟨e, he⟩ | ⟨ws', buf', r1, p, hok, -, hlen, -, -, hws', hbuf'⟩ := exec_effect i s.cfg s.ws s.buf
  · obtain rfl : s.raise e = t := Host.Outcome.next.inj ((he _ _ _).symm.trans h)
    exact State.raise_wf hs e
  · obtain rfl : ((s.setWs ws').setBuf buf').respond .ok r1 p = t :=
      Host.Outcome.next.inj ((hok _ _ _).symm.trans h)
    obtain ⟨hb, hlt⟩ := isBuffer_iff.1 hbuf
    obtain ⟨hb', hp⟩ := hbuf' hi hb
    have hmem : ((s.setWs ws').setBuf buf').wf = true :=
      State.setBuf_wf (State.setWs_wf hs (hws' hws)) (isBuffer_iff.2 ⟨hb', hlen ▸ hlt⟩)
    exact State.respond_wf hmem (by simp [Response.wf, hp])

theorem runPacket_keeps_wf {pkt : Bytes} {s t : State} (hs : s.wf = true) (hpkt : pkt.wf = true)
    (h : runPacket pkt s = .next t) : t.wf = true := by
  unfold runPacket at h
  split at h
  · obtain rfl := Host.Outcome.next.inj h
    exact State.raise_wf hs _
  · exact exec_keeps_wf hs (payload_wf hpkt ‹_›) h

theorem takeResponse_keeps_wf {s t : State} (hs : s.wf = true) (h : takeResponse s = .next t) : t.wf = true := by
  unfold takeResponse at h
  split at h
  · cases h
  · next r rest hr =>
    obtain rfl := Host.Outcome.next.inj h
    obtain ⟨-, -, -, hresp, -⟩ := State.wf_iff.1 hs
    rw [hr, List.all_cons, Bool.and_eq_true] at hresp
    exact State.observe_wf (State.setResponses_wf hs hresp.2) hresp.1

theorem perform_keeps_wf {a : HostAction} {s t : State} (hs : s.wf = true) (h : perform a s = .next t) :
    t.wf = true := by
  obtain ⟨-, hws, hbuf, -, -⟩ := State.wf_iff.1 hs
  cases a with
  | issue pkt =>
    rw [perform] at h
    obtain ⟨hpkt, h⟩ := next_of_ite h nofun
    exact runPacket_keeps_wf hs (Bool.and_eq_true_iff.1 hpkt).1 h
  | takeResponse => exact takeResponse_keeps_wf hs h
  | attachWs ws =>
    rw [perform] at h
    obtain ⟨hm, h⟩ := next_of_ite h nofun
    obtain rfl := Host.Outcome.next.inj h
    exact State.setWs_wf hs hm
  | detachWs =>
    obtain rfl := Host.Outcome.next.inj h
    exact State.setWs_wf hs (by simp [isWordStream_iff])
  | readWord k =>
    rw [perform] at h
    obtain ⟨-, h⟩ := readWs_next h
    obtain rfl := Host.Outcome.next.inj h
    exact State.observe_wf hs rfl
  | writeWord k v =>
    rw [perform] at h
    obtain ⟨hv, h⟩ := next_of_ite h nofun
    obtain ⟨hk, h⟩ := writeWs_next h
    obtain rfl := Host.Outcome.next.inj h
    exact State.setWs_wf hs (isWordStream_set hws hk hv)
  | attachBuf buf =>
    rw [perform] at h
    obtain ⟨hm, h⟩ := next_of_ite h nofun
    obtain rfl := Host.Outcome.next.inj h
    exact State.setBuf_wf hs hm
  | detachBuf =>
    obtain rfl := Host.Outcome.next.inj h
    exact State.setBuf_wf hs (by simp [isBuffer_iff])
  | readByte a =>
    rw [perform] at h
    obtain ⟨-, h⟩ := memRead_next h
    obtain rfl := Host.Outcome.next.inj h
    exact State.observe_wf hs rfl
  | writeByte a v =>
    rw [perform] at h
    obtain ⟨ha, h⟩ := memWrite_next h
    obtain rfl := Host.Outcome.next.inj h
    exact State.setBuf_wf hs (isBuffer_overwrite hbuf (Memory.ofList_wf _) ha)
  | reset =>
    obtain rfl := Host.Outcome.next.inj h
    exact hs

/-- Settles O41: the idle step changes nothing, and each move of the host keeps the invariant. -/
theorem stepKeepsStateWellFormed : Obligations.StepKeepsStateWellFormed := by
  intro s t hs h
  unfold step at h
  split at h
  · obtain rfl := Host.Outcome.next.inj h
    exact hs
  · exact perform_keeps_wf ((State.setInbox_wf s _).trans hs) h

/-! ### The bytes of the count field (00 R15) -/

theorem get_encCount_little {cfg : Config} (ho : cfg.countOrder = .little) (c : Nat) {j : Nat}
    (hj : j < cfg.countBytes) : (encCount cfg c).get j = BitVec.ofNat 8 (c / 2 ^ (8 * j)) := by
  rw [encCount, Memory.get_ofList, ho]
  exact getD_natToBytes _ c j hj

theorem get_encCount_big {cfg : Config} (ho : cfg.countOrder = .big) (c : Nat) {j : Nat} (hj : j < cfg.countBytes) :
    (encCount cfg c).get j = BitVec.ofNat 8 (c / 2 ^ (8 * (cfg.countBytes - 1 - j))) := by
  rw [encCount, Memory.get_ofList, ho, orderedBytes, List.getD_reverse j (by simpa using hj), natToBytes_length]
  exact getD_natToBytes _ c _ (by omega)

theorem orderedBytes_orderedNat (o : ByteOrder) (l : List Byte) : orderedBytes o l.length (orderedNat o l) = l := by
  cases o with
  | little => exact natToBytes_bytesToNat l
  | big =>
    have h := natToBytes_bytesToNat l.reverse
    rw [List.length_reverse] at h
    rw [orderedBytes, orderedNat, h, List.reverse_reverse]

/-- A canonical sequence is the sequence of its own cells. -/
theorem ofList_prefixList {w : Nat} {m : Memory w} (h : m.wf = true) : Memory.ofList (m.prefixList m.len) = m := by
  refine Memory.ext_get (Memory.ofList_wf _) h (Memory.prefixList_length m m.len) fun k hk => ?_
  rw [Memory.ofList_len] at hk
  rw [Memory.get_ofList, List.getD_eq_getElem _ _ hk]
  simp [Memory.prefixList]

/-- The other direction of `decCount_encCount`: a field of COUNT_BYTES bytes is the encoding of what it reads as. -/
theorem encCount_decCount {cfg : Config} {s : Bytes} (hs : s.wf = true) (hl : s.len = cfg.countBytes) :
    encCount cfg (decCount cfg s) = s := by
  have hbytes := orderedBytes_orderedNat cfg.countOrder (s.prefixList cfg.countBytes)
  rw [Memory.prefixList_length] at hbytes
  rw [encCount, decCount, hbytes, ← hl]
  exact ofList_prefixList hs

/-- Settles O26: the bytes are those of the number in either order, and encoding and reading undo each other. -/
theorem countFieldConversion : Obligations.CountFieldConversion := by
  intro cfg c hc
  refine ⟨encCount_wf cfg c, encCount_len cfg c, fun j hj => ⟨fun ho => ?_, fun ho => ?_⟩,
    decCount_encCount cfg hc, fun s hs hl hdec => ?_⟩
  · rw [get_encCount_little ho c hj, BitVec.toNat_ofNat]
  · rw [get_encCount_big ho c hj, BitVec.toNat_ofNat]
  · rw [← hdec, encCount_decCount hs hl]

end Sys2Proof.Machine
end

section
/-! PROOFS. What a command depends on and what it leaves as it was (NoHiddenState, ReadingCommandsStoreNothing), and
the block with no memory attached (UnattachedMemories, ResetIsIdleAndWellFormed). -/

namespace Sys2Proof.Machine

/-! ### One answer for all states with the same parameters and memories (10 R20) -/

/-- The memories a command leaves and the response it adds are fixed by the parameters and the memories it finds; only
BF.SET can leave another WS and only OV.WRITE another BUF. -/
theorem exec_answer_of_memories (i : Instr) (cfg : Config) (ws : Words) (buf : Bytes) :
    ∃ (ws' : Words) (buf' : Bytes) (r : Response),
      (∀ s : State, s.cfg = cfg → s.ws = ws → s.buf = buf →
        exec i s = .next (((s.setWs ws').setBuf buf').setResponses (s.responses ++ [r]))) ∧
      (i.opcode ≠ .bfSet → ws' = ws) ∧ (i.opcode ≠ .ovWrite → buf' = buf) := by
  obtain ⟨e, hfail⟩ | ⟨ws', buf', r1, p, hok, -, -, hws, hbuf, -, -⟩ := exec_effect i cfg ws buf
  · refine ⟨ws, buf, ⟨.error e, 0, Memory.empty⟩, ?_, fun _ => rfl, fun _ => rfl⟩
    rintro s rfl rfl rfl
    exact hfail _ _ _
  · refine ⟨ws', buf', ⟨.ok, r1, p⟩, ?_, hws, hbuf⟩
    rintro s rfl rfl rfl
    exact hok _ _ _

/-- Settles O35: neither memory is one the command could have changed. -/
theorem readingCommandsStoreNothing : Obligations.ReadingCommandsStoreNothing := by
  intro i s hset hwrite
  obtain ⟨ws', buf', r, hexec, hws, hbuf⟩ := exec_answer_of_memories i s.cfg s.ws s.buf
  obtain rfl := hws hset
  obtain rfl := hbuf hwrite
  exact ⟨r, hexec s rfl rfl rfl⟩

/-- Settles O38: the one answer for these parameters and memories serves both states. -/
theorem noHiddenState : Obligations.NoHiddenState := by
  intro i s s' hcfg hws hbuf
  obtain ⟨ws', buf', r, hexec, -, -⟩ := exec_answer_of_memories i s.cfg s.ws s.buf
  exact ⟨ws', buf', r, hexec s rfl rfl rfl, hexec s' hcfg.symm hws.symm hbuf.symm⟩

/-! ### No memory attached (10 R21) -/

/-- On an empty stream a field of legal width is legal exactly when it has no samples (30 R79). -/
theorem legalField_iff_of_no_words {b : BitVec 7} {n : BitVec 32} {s : State} (hM : s.ws.len = 0)
    (hB : 1 ≤ b.toNat) (hBW : b.toNat ≤ s.cfg.W) : legalField b n s = true ↔ n.toNat = 0 := by
  have hB0 : b.toNat ≠ 0 := Nat.one_le_iff_ne_zero.1 hB
  simp [legalField_iff, hM, hB, hBW, hB0]

/-- On an empty stream no BF command gets past its first two checks (41 R101). -/
theorem withSample_of_no_words {b : BitVec 7} {n : BitVec 32} {s : State} (hM : s.ws.len = 0) (hB : 1 ≤ b.toNat)
    (hBW : b.toNat ≤ s.cfg.W) (index : Word) (f : Position → Result) :
    withSample b n index s f = fail s (if n.toNat = 0 then .indexOutOfRange else .illegalCommand) := by
  have hlegal := legalField_iff_of_no_words (n := n) hM hB hBW
  obtain ⟨hl, h⟩ | ⟨hl, -, h⟩ | ⟨hl, hi, -⟩ := withSample_cases b n index s f
  · rw [h, if_neg fun hn => Bool.eq_false_iff.1 hl (hlegal.2 hn)]
  · rw [h, if_pos (hlegal.1 hl)]
  · have hn := hlegal.1 hl
    omega

theorem execBf_of_no_words {b : BitVec 7} {n : BitVec 32} {s : State} (hM : s.ws.len = 0) (hB : 1 ≤ b.toNat)
    (hBW : b.toNat ≤ s.cfg.W) (index value : Word) :
    execBfGet b n index s = fail s (if n.toNat = 0 then .indexOutOfRange else .illegalCommand) ∧
    execBfSet b n index value s = fail s (if n.toNat = 0 then .indexOutOfRange else .illegalCommand) :=
  ⟨withSample_of_no_words hM hB hBW index _, withSample_of_no_words hM hB hBW index _⟩

/-- A record holds at least the bytes of its count field (43 R141). -/
theorem recordSize_pos (cfg : Config) (hs c cs : Nat) : 0 < recordSize cfg hs c cs := by
  have hfield := countBytes_pos cfg
  unfold recordSize
  omega

/-- In an empty buffer a legal OV.WRITE finds no room, whether or not the size fits (43 R150). -/
theorem execOvWrite_of_no_bytes {hs c cs : Word} {p : Bytes} {s : State} (hL : s.buf.len = 0) (hcs : 1 ≤ cs.toNat)
    (hp : p.len = hs.toNat + c.toNat * cs.toNat) (hc : c.toNat < 2 ^ (8 * s.cfg.countBytes)) :
    execOvWrite hs c cs p s = fail s .bufferTooShort ∨ execOvWrite hs c cs p s = fail s .sizeOverflow := by
  have hshort : s.buf.len < recordSize s.cfg hs.toNat c.toNat cs.toNat := hL ▸ recordSize_pos _ _ _ _
  rw [execOvWrite_eq, if_neg (by omega), if_neg (Nat.not_le.2 hc), if_pos hshort]
  split
  · exact .inr rfl
  · exact .inl rfl

/-- In an empty buffer a legal OV.READ does not find the fixed prefix (43 R156). -/
theorem execOvRead_of_no_bytes {hs cs : Word} {s : State} (hL : s.buf.len = 0) (hcs : 1 ≤ cs.toNat) :
    execOvRead hs cs s = fail s .bufferTooShort ∨ execOvRead hs cs s = fail s .sizeOverflow := by
  have hfield := countBytes_pos s.cfg
  have hshort : s.buf.len < hs.toNat + s.cfg.countBytes := by omega
  rw [execOvRead_eq, if_neg (by omega), if_pos hshort]
  split
  · exact .inr rfl
  · exact .inl rfl

/-- Settles O47: with no word only a field of no samples is legal, and with no byte no record has room. -/
theorem unattachedMemories : Obligations.UnattachedMemories := by
  intro s
  refine ⟨fun hM b n index value hB hBW => ?_, fun hL hs c cs p hcs =>
    ⟨execOvWrite_of_no_bytes hL hcs, execOvRead_of_no_bytes hL hcs⟩⟩
  obtain ⟨hget, hset⟩ := execBf_of_no_words hM hB hBW index value
  constructor
  · intro hn
    rw [if_neg (Nat.one_le_iff_ne_zero.1 hn)] at hget hset
    exact ⟨hget, hset⟩
  · intro hn
    rw [if_pos hn] at hget hset
    exact ⟨hget, hset⟩

theorem isWordStream_empty (cfg : Config) : isWordStream cfg Memory.empty = true := by simp [isWordStream_iff]

theorem isBuffer_empty : isBuffer Memory.empty = true := by simp [isBuffer_iff]

/-- After reset everything but the parameters is empty, and so well formed. -/
theorem State.resetOf_wf {c : Config} (hc : c.tsLayout.wf = true) : (State.resetOf c).wf = true :=
  State.wf_iff.2 ⟨hc, isWordStream_empty c, isBuffer_empty, rfl, rfl⟩

/-- Settles O42: the empty state is well formed, and with no move to come its step is the idle one. -/
theorem resetIsIdleAndWellFormed : Obligations.ResetIsIdleAndWellFormed :=
  ⟨rfl, fun _ hc => ⟨State.resetOf_wf hc, rfl, rfl, rfl, rfl, rfl⟩⟩

end Sys2Proof.Machine
end

section
/-! PROOFS. The memories: what a command reads and writes of them (BfSetFrame, BfGetReadsOnlyItsWords,
OvReadReadsOnlyTheRecord, RepeatingChangesNothing), and the host's own view of them and access to them
(StorageByteOrder, HostWritesAreSeen). -/

namespace Sys2Proof.Machine

/-! ### The two commands that store: a failure, or one store for all states with the same parameters and length -/

/-- BF.SET fails, or its sample lies inside WS and every state with these parameters and this M stores it. -/
theorem execBfSet_fails_or_stores (b : BitVec 7) (n : BitVec 32) (index value : Word) (s : State) :
    (∃ e, execBfSet b n index value s = fail s e) ∨
    (((samplePosition s.cfg.W b.toNat index.toNat).wordIndex < s.ws.len ∧
      (0 < (samplePosition s.cfg.W b.toNat index.toNat).remainderBits →
        (samplePosition s.cfg.W b.toNat index.toNat).wordIndex + 1 < s.ws.len)) ∧
      ∀ s' : State, s'.cfg = s.cfg → s'.ws.len = s.ws.len →
        execBfSet b n index value s' = finish (s'.setWs (wsAfterSet s' b index value)) 0) := by
  obtain ⟨-, h⟩ | ⟨-, -, h⟩ | ⟨-, -, -, h⟩ | ⟨hl, hi, hv, -⟩ := execBfSet_cases b n index value s
  · exact .inl ⟨_, h⟩
  · exact .inl ⟨_, h⟩
  · exact .inl ⟨_, h⟩
  · obtain ⟨hB, -, hNB⟩ := legalField_iff.1 hl
    exact .inr ⟨samplePosition_inside (W_pos s.cfg) hB hNB hi, fun s' hcfg hM =>
      execBfSet_eq ((legalField_congr hcfg hM b n).trans hl) hi hv⟩

/-- OV.WRITE fails, or its record fits BUF and every state with these parameters and this L stores it. -/
theorem execOvWrite_fails_or_stores (hs c cs : Word) (p : Bytes) (s : State) :
    (∃ e, execOvWrite hs c cs p s = fail s e) ∨
    (recordSize s.cfg hs.toNat c.toNat cs.toNat ≤ s.buf.len ∧
      ∀ s' : State, s'.cfg = s.cfg → s'.buf.len = s.buf.len →
        execOvWrite hs c cs p s' = finish (s'.setBuf (bufAfterWrite s' hs c cs p)) 0) := by
  have hs' := execOvWrite_eq hs c cs p s
  split at hs'
  · exact .inl ⟨_, hs'⟩
  next hlegal =>
  split at hs'
  · exact .inl ⟨_, hs'⟩
  next hcount =>
  split at hs'
  · exact .inl ⟨_, hs'⟩
  next hsize =>
  split at hs'
  · exact .inl ⟨_, hs'⟩
  next hroom =>
  refine .inr ⟨Nat.le_of_not_lt hroom, fun s' hcfg hL => ?_⟩
  rw [execOvWrite_eq, hcfg, hL, if_neg hlegal, if_neg hcount, if_neg hsize, if_neg hroom]

/-- Settles O13: a failed BF.SET changes nothing but the responses, and a successful one is read word by word. -/
theorem bfSetFrame : Obligations.BfSetFrame := by
  intro s t b n index value hs h
  obtain ⟨e, hfail⟩ | ⟨⟨hin, -⟩, hstore⟩ := execBfSet_fails_or_stores b n index value s
  · obtain rfl : s.raise e = t := Host.Outcome.next.inj (hfail.symm.trans h)
    exact ⟨rfl, rfl, rfl, rfl, rfl, ⟨_, rfl⟩, fun _ _ _ => rfl⟩
  · obtain rfl : (s.setWs (wsAfterSet s b index value)).respond .ok 0 Memory.empty = t :=
      Host.Outcome.next.inj ((hstore s rfl rfl).symm.trans h)
    refine ⟨rfl, rfl, rfl, rfl, wsAfterSet_len s b index value, ⟨_, rfl⟩, fun k hfirst hsecond => ?_⟩
    exact (get_wsAfterSet (State.ws_wf hs) b index value hin k).trans ((if_neg hfirst).trans (if_neg hsecond))

/-! ### What the reading commands look at (20 R47) -/

/-- The ways BF.GET can end, by what it looks at: the checks at M alone, the answer at the sample (41 R101, R102). -/
theorem execBfGet_eq_ite (b : BitVec 7) (n : BitVec 32) (index : Word) (s : State) :
    execBfGet b n index s =
      if legalField b n s = false then fail s .illegalCommand
      else if n.toNat ≤ index.toNat then fail s .indexOutOfRange
      else finish s (sampleRead s b index) := by
  obtain ⟨hl, h⟩ | ⟨hl, hi, h⟩ | ⟨hl, hi, h⟩ := execBfGet_cases b n index s
  · rw [h, if_pos hl]
  · rw [h, if_neg (by simp [hl]), if_pos hi]
  · rw [h, if_neg (by simp [hl]), if_neg (Nat.not_le.2 hi)]

/-- The sample read is a function of its one or two words. -/
theorem sampleRead_congr {s s' : State} {b : BitVec 7} {index : Word} (hcfg : s'.cfg = s.cfg)
    (hfirst : s'.ws.get (samplePosition s.cfg.W b.toNat index.toNat).wordIndex =
      s.ws.get (samplePosition s.cfg.W b.toNat index.toNat).wordIndex)
    (hsecond : 0 < (samplePosition s.cfg.W b.toNat index.toNat).remainderBits →
      s'.ws.get ((samplePosition s.cfg.W b.toNat index.toNat).wordIndex + 1) =
        s.ws.get ((samplePosition s.cfg.W b.toNat index.toNat).wordIndex + 1)) :
    sampleRead s' b index = sampleRead s b index := by
  simp only [sampleRead, hcfg, hfirst]
  split
  · rw [hsecond ‹_›]
  · rfl

/-- Settles O16: the checks look at M alone, and the sample read is the same for both streams. -/
theorem bfGetReadsOnlyItsWords : Obligations.BfGetReadsOnlyItsWords := by
  intro s ws' b n index hlen hfirst hsecond
  have hlegal : legalField b n (s.setWs ws') = legalField b n s :=
    legalField_congr (s := s) (s' := s.setWs ws') rfl hlen b n
  have hread : sampleRead (s.setWs ws') b index = sampleRead s b index := sampleRead_congr rfl hfirst hsecond
  simp only [exec, execBfGet_eq_ite, hlegal, hread]
  split_ifs
  · exact ⟨_, rfl, rfl⟩
  · exact ⟨_, rfl, rfl⟩
  · exact ⟨_, rfl, rfl⟩

/-- Two sequences that agree on a run of addresses have the same slice there. -/
theorem slice_congr {w : Nat} {m m' : Memory w} (hm : m.wf = true) (hm' : m'.wf = true) {a n : Nat}
    (hagree : ∀ k, a ≤ k → k < a + n → m'.get k = m.get k) : m'.slice a n = m.slice a n := by
  refine Memory.ext_get (Memory.slice_wf hm' a n) (Memory.slice_wf hm a n) rfl fun k hk => ?_
  rw [Memory.slice_len] at hk
  rw [Memory.get_slice hm', Memory.get_slice hm, if_pos hk, if_pos hk]
  exact hagree _ (by omega) (by omega)

/-- Settles O32: the checks look at L and the stored count, and the answer is cut out of the record. -/
theorem ovReadReadsOnlyTheRecord : Obligations.OvReadReadsOnlyTheRecord := by
  intro s buf' hs cs hbuf hbuf' hlen hfixed hrecord
  have hcount : storedCount (s.setBuf buf') hs.toNat = storedCount s hs.toNat :=
    congrArg (decCount s.cfg) (slice_congr hbuf hbuf' fun a _ ha => hfixed a ha)
  simp only [exec, execOvRead_eq, hcount, State.setBuf_cfg, State.setBuf_buf, hlen]
  split_ifs with hchild hpre hshort hsize hroom
  · exact ⟨_, rfl, rfl⟩
  · exact ⟨_, rfl, rfl⟩
  · exact ⟨_, rfl, rfl⟩
  · exact ⟨_, rfl, rfl⟩
  · exact ⟨_, rfl, rfl⟩
  · have hagree := hrecord (Nat.le_of_not_lt hroom) (Nat.lt_of_not_le hsize)
    have hheader : buf'.slice 0 hs.toNat = s.buf.slice 0 hs.toNat :=
      slice_congr hbuf hbuf' fun a _ ha => hfixed a (by omega)
    have hchildren := slice_congr hbuf hbuf' (a := hs.toNat + s.cfg.countBytes)
      (n := storedCount s hs.toNat * cs.toNat) fun a _ ha => hagree a ha
    rw [hheader, hchildren]
    exact ⟨_, rfl, rfl⟩

/-! ### Repeating a successful command (20 R49) -/

/-- Bits put into a word twice are put in once. -/
theorem and_or_and_or {w : Nat} (x keep put : BitVec w) :
    (((x &&& keep) ||| put) &&& keep) ||| put = (x &&& keep) ||| put := by
  have hbit : ∀ b k p : Bool, (((b && k) || p) && k || p) = ((b && k) || p) := by decide
  ext i hi
  simp only [BitVec.getElem_or, BitVec.getElem_and, hbit]

theorem mergeFirst_mergeFirst (W : Nat) (p : Position) (w0 value : Word) :
    mergeFirst W p (mergeFirst W p w0 value) value = mergeFirst W p w0 value := and_or_and_or _ _ _

theorem mergeSecond_mergeSecond (W : Nat) (p : Position) (w1 value : Word) :
    mergeSecond W p (mergeSecond W p w1 value) value = mergeSecond W p w1 value := and_or_and_or _ _ _

/-- A sample stored again where it stands leaves WS as it is (41 R104). -/
theorem wsAfterSet_wsAfterSet {s : State} (hw : s.ws.wf = true) {b : BitVec 7} {index : Word} (value : Word)
    (hin : (samplePosition s.cfg.W b.toNat index.toNat).wordIndex < s.ws.len)
    (hin' : 0 < (samplePosition s.cfg.W b.toNat index.toNat).remainderBits →
      (samplePosition s.cfg.W b.toNat index.toNat).wordIndex + 1 < s.ws.len) :
    wsAfterSet (s.setWs (wsAfterSet s b index value)) b index value = wsAfterSet s b index value := by
  have hlen := wsAfterSet_len s b index value
  have hw1 := wsAfterSet_wf hw b index value hin hin'
  have hw2 := wsAfterSet_wf (s := s.setWs (wsAfterSet s b index value)) hw1 b index value
    (hlen.symm ▸ hin) (hlen.symm ▸ hin')
  refine Memory.ext_get hw2 hw1 (wsAfterSet_len _ _ _ _) fun k _ => ?_
  rw [get_wsAfterSet (s := s.setWs (wsAfterSet s b index value)) hw1 b index value (hlen.symm ▸ hin) k,
    State.setWs_ws, State.setWs_cfg, get_wsAfterSet hw b index value hin k]
  dsimp only
  split_ifs
  · exact mergeFirst_mergeFirst _ _ _ _
  · exact mergeSecond_mergeSecond _ _ _ _
  · rfl

/-- A record stored again where it stands leaves BUF as it is (43 R150). -/
theorem bufAfterWrite_bufAfterWrite {s : State} (hb : s.buf.wf = true) {hs c cs : Word} {p : Bytes}
    (hp : p.wf = true) (hfit : recordSize s.cfg hs.toNat c.toNat cs.toNat ≤ s.buf.len) :
    bufAfterWrite (s.setBuf (bufAfterWrite s hs c cs p)) hs c cs p = bufAfterWrite s hs c cs p := by
  have hb1 := bufAfterWrite_wf hb hp hfit
  refine Memory.ext_get (bufAfterWrite_wf (s := s.setBuf _) hb1 hp hfit) hb1 rfl fun k _ => ?_
  rw [get_bufAfterWrite (s := s.setBuf (bufAfterWrite s hs c cs p)) hb1 hp hfit k, State.setBuf_cfg,
    State.setBuf_buf, get_bufAfterWrite hb hp hfit k]
  split_ifs <;> rfl

/-- The response of a failed command carries its error. -/
theorem status_of_fail {s t : State} {e : CmdError} {r : Response} (h : fail s e = .next t)
    (hr : t.responses = s.responses ++ [r]) : r.status = .error e := by
  obtain rfl := Host.Outcome.next.inj h
  obtain rfl := response_inj hr
  rfl

section Repeating

variable {s t : State} {r : Response} (hr : t.responses = s.responses ++ [r])
include hr

theorem exec_repeat_of_reading {i : Instr} (hset : i.opcode ≠ .bfSet) (hwrite : i.opcode ≠ .ovWrite)
    (h : exec i s = .next t) : exec i t = .next (t.setResponses (t.responses ++ [r])) := by
  obtain ⟨ws', buf', r', hexec, hws, hbuf⟩ := exec_answer_of_memories i s.cfg s.ws s.buf
  obtain rfl := hws hset
  obtain rfl := hbuf hwrite
  obtain rfl : s.setResponses (s.responses ++ [r']) = t :=
    Host.Outcome.next.inj ((hexec s rfl rfl rfl).symm.trans h)
  obtain rfl := response_inj hr
  exact hexec _ rfl rfl rfl

theorem execBfSet_repeat {b : BitVec 7} {n : BitVec 32} {index value : Word} (hw : s.ws.wf = true)
    (h : execBfSet b n index value s = .next t) (hok : r.status = .ok) :
    execBfSet b n index value t = .next (t.setResponses (t.responses ++ [r])) := by
  obtain ⟨e, hfail⟩ | ⟨⟨hin, hin'⟩, hstore⟩ := execBfSet_fails_or_stores b n index value s
  · cases hok.symm.trans (status_of_fail (hfail.symm.trans h) hr)
  · obtain rfl : (s.setWs (wsAfterSet s b index value)).respond .ok 0 Memory.empty = t :=
      Host.Outcome.next.inj ((hstore s rfl rfl).symm.trans h)
    obtain rfl := response_inj hr
    have hagain := hstore ((s.setWs (wsAfterSet s b index value)).respond .ok 0 Memory.empty) rfl
      (wsAfterSet_len s b index value)
    exact hagain.trans <| congrArg (fun m => finish (State.setWs _ m) 0) (wsAfterSet_wsAfterSet hw value hin hin')

theorem execOvWrite_repeat {hs c cs : Word} {p : Bytes} (hb : s.buf.wf = true) (hp : p.wf = true)
    (h : execOvWrite hs c cs p s = .next t) (hok : r.status = .ok) :
    execOvWrite hs c cs p t = .next (t.setResponses (t.responses ++ [r])) := by
  obtain ⟨e, hfail⟩ | ⟨hfit, hstore⟩ := execOvWrite_fails_or_stores hs c cs p s
  · cases hok.symm.trans (status_of_fail (hfail.symm.trans h) hr)
  · obtain rfl : (s.setBuf (bufAfterWrite s hs c cs p)).respond .ok 0 Memory.empty = t :=
      Host.Outcome.next.inj ((hstore s rfl rfl).symm.trans h)
    obtain rfl := response_inj hr
    have hagain := hstore ((s.setBuf (bufAfterWrite s hs c cs p)).respond .ok 0 Memory.empty) rfl
      (bufAfterWrite_len s hs c cs p)
    exact hagain.trans <| congrArg (fun m => finish (State.setBuf _ m) 0) (bufAfterWrite_bufAfterWrite hb hp hfit)

end Repeating

/-- Settles O40: a command that stores nothing meets the memories it met before, and a store repeated stores the
same. -/
theorem repeatingChangesNothing : Obligations.RepeatingChangesNothing := by
  intro i s t r hs hp h hr hok
  cases i with
  | bfSet b n index value => exact execBfSet_repeat hr (State.ws_wf hs) h hok
  | ovWrite headerSize count childSize payload => exact execOvWrite_repeat hr (State.buf_wf hs) hp h hok
  | _ => exact exec_repeat_of_reading hr nofun nofun h

/-! ### The bytes of WS as the host's storage holds them (20 R42) -/

theorem storageByte_little {s : State} (ho : s.cfg.wordOrder = .little) (b : Nat) :
    s.storageByte b = (s.ws.get (b / (s.cfg.W / 8))).extractLsb' (8 * (b % (s.cfg.W / 8))) 8 := by
  simp only [State.storageByte, ho]

theorem storageByte_big {s : State} (ho : s.cfg.wordOrder = .big) (b : Nat) :
    s.storageByte b =
      (s.ws.get (b / (s.cfg.W / 8))).extractLsb' (8 * (s.cfg.W / 8 - 1 - b % (s.cfg.W / 8))) 8 := by
  simp only [State.storageByte, ho]

/-- Bit `t` lies in the same word whether bits or bytes are counted, at the bit its byte and its place there give. -/
theorem byte_and_word_of_bit (c : Config) (t : Nat) :
    t / 8 / (c.W / 8) = t / c.W ∧ 8 * (t / 8 % (c.W / 8)) + t % 8 = t % c.W := by
  rcases W_cases c with hW | hW <;> rw [hW] <;> omega

/-- Bit `i` of byte `j` of a word, counted from the top, is a bit of the word. -/
theorem bit_of_reversed_byte_lt (c : Config) (j : Nat) {i : Nat} (hi : i < 8) : 8 * (c.W / 8 - 1 - j) + i < c.W := by
  rcases W_cases c with hW | hW <;> rw [hW] <;> omega

/-- Settles O17: `little` keeps the place of every bit, and `big` counts the bytes of a word from the top. -/
theorem storageByteOrder : Obligations.StorageByteOrder := by
  intro s
  refine ⟨fun ho t => ?_, fun ho b i hi => ?_⟩
  · obtain ⟨hword, hbit⟩ := byte_and_word_of_bit s.cfg t
    rw [storageByte_little ho, getLsbD_field _ _ (Nat.mod_lt t (by decide)), hword, hbit, State.streamBit]
  · rw [storageByte_big ho, getLsbD_field _ _ hi, streamBit_word s _ (bit_of_reversed_byte_lt s.cfg _ hi)]

/-! ### The host's own reads and writes between commands (20 R53) -/

section HostAccess

variable {s : State} {rest : List HostAction}

theorem step_cons {a : HostAction} (h : s.inbox = a :: rest) : step s = perform a (s.setInbox rest) := by
  rw [step, h]

theorem step_readWord {k : Nat} (h : s.inbox = .readWord k :: rest) (hk : k < s.ws.len) :
    step s = .next ((s.setInbox rest).observe (.word k (s.ws.get k))) := by
  rw [step_cons h, perform, readWs_eq (s := s.setInbox rest) hk, State.setInbox_ws]

theorem step_writeWord {k : Nat} {v : Word} (h : s.inbox = .writeWord k v :: rest) (hk : k < s.ws.len)
    (hv : v.toNat < 2 ^ s.cfg.W) : step s = .next ((s.setInbox rest).setWs (s.ws.set k v)) :=
  (step_cons h).trans ((if_pos hv).trans (writeWs_eq (s := s.setInbox rest) hk v _))

theorem step_readByte {a : Nat} (h : s.inbox = .readByte a :: rest) (ha : a < s.buf.len) (hb : s.buf.wf = true) :
    step s = .next ((s.setInbox rest).observe (.byte a (s.buf.get a))) := by
  have hget : (s.buf.slice a 1).get 0 = s.buf.get a := Memory.get_slice hb a 1 0
  rw [step_cons h, perform, memRead_eq (s := s.setInbox rest) ha, State.setInbox_buf, hget]

theorem step_writeByte {a : Nat} {v : Byte} (h : s.inbox = .writeByte a v :: rest) (ha : a < s.buf.len) :
    step s = .next ((s.setInbox rest).setBuf (s.buf.overwrite a (Memory.ofList [v]))) :=
  (step_cons h).trans (memWrite_eq (s := s.setInbox rest) ha _)

end HostAccess

/-- A byte written into a sequence is what stands there, and every other byte is as before. -/
theorem get_overwrite_byte {m : Bytes} (hm : m.wf = true) {a : Nat} (ha : a < m.len) (v : Byte) (d : Nat) :
    (m.overwrite a (Memory.ofList [v])).get d = if d = a then v else m.get d := by
  rw [Memory.get_overwrite hm (Memory.ofList_wf [v]) ha, Memory.ofList_len, List.length_singleton]
  by_cases hd : d = a
  · subst hd
    rw [if_pos (by omega), if_pos rfl, Nat.sub_self]
    exact Memory.get_ofList [v] 0
  · rw [if_neg (by omega), if_neg hd]

/-- Settles O46: the write is the first step and the read the second, of the memory the write left. -/
theorem hostWritesAreSeen : Obligations.HostWritesAreSeen := by
  intro s rest hs
  refine ⟨fun k j v hinbox hk hj hv => ?_, fun a d v hinbox ha hd => ?_⟩
  · have hwrite := step_writeWord hinbox hk hv
    have hread := step_readWord (s := (s.setInbox (.readWord j :: rest)).setWs (s.ws.set k v)) rfl hj
    refine ⟨_, (run_succ 1 hwrite).trans (run_succ 0 hread), rfl, ?_⟩
    rw [← Memory.get_set (State.ws_wf hs) k j v]
    rfl
  · have hwrite := step_writeByte hinbox ha
    have hwf := Memory.overwrite_wf (State.buf_wf hs) (Memory.ofList_wf [v]) ha
    have hread := step_readByte
      (s := (s.setInbox (.readByte d :: rest)).setBuf (s.buf.overwrite a (Memory.ofList [v]))) rfl hd hwf
    refine ⟨_, (run_succ 1 hwrite).trans (run_succ 0 hread), rfl, ?_⟩
    rw [← get_overwrite_byte (State.buf_wf hs) ha v d]
    rfl

end Sys2Proof.Machine
end

section
/-! PROOFS. Encoding and decoding are inverse to each other (DecodeOfEncode, EncodeOfDecode), the worked encodings
among them (WorkedEncodings). -/

namespace Sys2Proof

/-! ### From a command to its packet and back -/

/-- The row's operands, read from the descriptor a command writes, are the command's own (30 R74 to R76). -/
theorem assemble_descriptor (i : Instr) : assemble i.opcode (descriptor i) i.payload = i := by
  cases i <;> simp only [Instr.opcode, Instr.payload, descriptor, assemble, fieldBW_quads, fieldNS_quads,
    fieldVAR_quads, fieldLow_quads, fieldHigh_quads, fieldQ1_quads, fieldQ2_quads, fieldQ3_quads]

theorem descriptor_selects_row (i : Instr) : descriptor i &&& i.opcode.mask = i.opcode.pattern := by
  cases i with
  | bfGet b n index => exact (Laws.SelectsRow.bfGet b n index).2
  | bfSet b n index value => exact (Laws.SelectsRow.bfSet b n index value).2
  | tsCompose low high => exact (Laws.SelectsRow.tsCompose low high).2
  | tsDecompose ts => exact (Laws.SelectsRow.tsDecompose ts).2
  | tsGet variant low high => exact (Laws.SelectsRow.tsGet variant low high).2
  | tsSet variant low high ts => exact (Laws.SelectsRow.tsSet variant low high ts).2
  | ovSize hs c cs => exact (Laws.SelectsRow.ovSize hs c cs).2
  | ovWrite hs c cs p => exact (Laws.SelectsRow.ovWrite hs c cs p).2
  | ovRead hs cs => exact (Laws.SelectsRow.ovRead hs cs).2

/-- Only OV.WRITE's packet is longer than the descriptor (30 R70). -/
theorem opcode_ovWrite_or_encode_len (i : Instr) : i.opcode = .ovWrite ∨ (encode i).len = 32 := by
  rw [encode_len]
  cases i with
  | ovWrite => exact .inl rfl
  | _ => exact .inr rfl

/-- Settles O1: the encoded descriptor selects the command's row, and the row's operands are read back field by
field. -/
theorem decodeOfEncode : Obligations.DecodeOfEncode := by
  intro i hp
  have hd : descriptorOf (encode i) = descriptor i := descriptorOf_append hp
  have hpayload : payloadOf (encode i) = i.payload := payloadOf_append hp
  have hlen : 32 ≤ (encode i).len := by rw [encode_len]; exact Nat.le_add_right _ _
  rw [decode_of_row hlen (by rw [hd, fieldOP_descriptor]) (by rw [hd, descriptor_selects_row])
    (opcode_ovWrite_or_encode_len i), hd, hpayload, assemble_descriptor]

/-- Settles O3: the bytes of each encoding are computed, and the decoding follows from the round trip. -/
theorem workedEncodings : Obligations.WorkedEncodings := by
  intro w hw
  suffices h : w.1.payload.wf = true ∧ encode w.1 = w.2 from ⟨h.2 ▸ decodeOfEncode w.1 h.1, h.2⟩
  revert w
  decide

/-! ### The fields that must be zero, row by row (30 R77) -/

section RowFields

variable {op : Opcode} {d : BitVec 256} (hm : d &&& op.mask = op.pattern)
include hm

/-- Above the OP byte, a field the row's mask covers is zero. -/
theorem masked_field_eq_zero (st len : Nat) (hst : 8 ≤ st) (hmask : op.mask.extractLsb' st len = BitVec.allOnes len) :
    d.extractLsb' st len = 0 := by
  rw [field_of_row hm st len hmask]
  apply BitVec.eq_of_getLsbD_eq
  intro k hk
  rw [getLsbD_field _ _ hk, Opcode.pattern, BitVec.getLsbD_setWidth, BitVec.getLsbD_of_ge op.byte _ (by omega),
    Bool.and_false]
  exact BitVec.getLsbD_zero.symm

theorem reserved_of_row : d.extractLsb' 16 16 = 0 :=
  masked_field_eq_zero hm 16 16 (by decide) (by cases op <;> decide)

theorem fieldBW_of_row (h : op.byte ∉ ([0x01, 0x02] : List Byte)) : fieldBW d = 0 :=
  masked_field_eq_zero hm 8 7 (by decide) (by revert h; cases op <;> decide)

theorem fieldNS_of_row (h : op.byte ∉ ([0x01, 0x02] : List Byte)) : fieldNS d = 0 :=
  masked_field_eq_zero hm 32 32 (by decide) (by revert h; cases op <;> decide)

theorem getLsbD_var_of_row (h : op.byte ∉ ([0x12, 0x13] : List Byte)) : d.getLsbD 15 = false := by
  have hbit := masked_field_eq_zero hm 15 1 (by decide) (by revert h; cases op <;> decide)
  rw [← getLsbD_field d 15 (len := 1) (k := 0) (by decide), hbit]
  rfl

theorem fieldQ1_of_row (h : op.byte = 0x11) : fieldQ1 d = 0 :=
  masked_field_eq_zero hm 64 64 (by decide) (by revert h; cases op <;> decide)

theorem fieldQ2_of_row (h : op.byte ∈ ([0x01, 0x10, 0x12, 0x22] : List Byte)) : fieldQ2 d = 0 :=
  masked_field_eq_zero hm 128 64 (by decide) (by revert h; cases op <;> decide)

theorem fieldQ3_of_row (h : op.byte ∈ ([0x01, 0x02, 0x10, 0x11, 0x12, 0x13] : List Byte)) : fieldQ3 d = 0 :=
  masked_field_eq_zero hm 192 64 (by decide) (by revert h; cases op <;> decide)

/-! ### From a packet to its command and back -/

/-- A descriptor of a row is its fields: the reserved bits hold nothing. -/
theorem quads_of_row (hop : fieldOP d = op.byte) :
    quads (fieldQ3 d) (fieldQ2 d) (fieldQ1 d)
      (controlQuad op (fieldBW d) (variantBit (fieldVAR d)) (fieldNS d)) = d := by
  rw [controlQuad_fields d op hop (reserved_of_row hm), quads_fields]

theorem variantBit_fieldVAR_of_row (h : op.byte ∉ ([0x12, 0x13] : List Byte)) : variantBit (fieldVAR d) = 0 := by
  rw [fieldVAR, getLsbD_var_of_row hm h]
  rfl

/-- Every field of a row is an operand of its command or zero, so the command's descriptor is the row's. -/
theorem descriptor_assemble (hop : fieldOP d = op.byte) (p : Bytes) : descriptor (assemble op d p) = d := by
  refine Eq.trans ?_ (quads_of_row hm hop)
  cases op with
  | bfGet =>
    rw [fieldQ3_of_row hm (by decide), fieldQ2_of_row hm (by decide), variantBit_fieldVAR_of_row hm (by decide)]
    rfl
  | bfSet =>
    rw [fieldQ3_of_row hm (by decide), variantBit_fieldVAR_of_row hm (by decide)]
    rfl
  | tsCompose =>
    rw [fieldQ3_of_row hm (by decide), fieldQ2_of_row hm (by decide), variantBit_fieldVAR_of_row hm (by decide),
      fieldBW_of_row hm (by decide), fieldNS_of_row hm (by decide), ← halves_fields d]
    rfl
  | tsDecompose =>
    rw [fieldQ3_of_row hm (by decide), fieldQ1_of_row hm (by decide), variantBit_fieldVAR_of_row hm (by decide),
      fieldBW_of_row hm (by decide), fieldNS_of_row hm (by decide)]
    rfl
  | tsGet =>
    rw [fieldQ3_of_row hm (by decide), fieldQ2_of_row hm (by decide), fieldBW_of_row hm (by decide),
      fieldNS_of_row hm (by decide), ← halves_fields d]
    rfl
  | tsSet =>
    rw [fieldQ3_of_row hm (by decide), fieldBW_of_row hm (by decide), fieldNS_of_row hm (by decide),
      ← halves_fields d]
    rfl
  | ovSize =>
    rw [variantBit_fieldVAR_of_row hm (by decide), fieldBW_of_row hm (by decide), fieldNS_of_row hm (by decide)]
    rfl
  | ovWrite =>
    rw [variantBit_fieldVAR_of_row hm (by decide), fieldBW_of_row hm (by decide), fieldNS_of_row hm (by decide)]
    rfl
  | ovRead =>
    rw [fieldQ2_of_row hm (by decide), variantBit_fieldVAR_of_row hm (by decide), fieldBW_of_row hm (by decide),
      fieldNS_of_row hm (by decide)]
    rfl

end RowFields

/-- A packet of 32 bytes has no payload. -/
theorem payloadOf_of_len {pkt : Bytes} (hw : pkt.wf = true) (hl : pkt.len = 32) : payloadOf pkt = Memory.empty := by
  have hlen : (payloadOf pkt).len = 0 := by rw [payloadOf, Memory.slice_len, hl]
  exact Memory.ext_get (Memory.slice_wf hw _ _) Memory.empty_wf hlen fun k hk =>
    absurd (hlen ▸ hk) (Nat.not_lt_zero k)

theorem payload_assemble {op : Opcode} {pkt : Bytes} (d : BitVec 256) (hw : pkt.wf = true)
    (hp : op = .ovWrite ∨ pkt.len = 32) : (assemble op d (payloadOf pkt)).payload = payloadOf pkt := by
  rcases hp with rfl | hl
  · rfl
  · rw [payloadOf_of_len hw hl]
    cases op <;> rfl

/-- Settles O2: the command's descriptor and payload are the packet's, and together they are the packet. -/
theorem encodeOfDecode : Obligations.EncodeOfDecode := by
  intro pkt i hw h
  obtain ⟨op, hl, hop, hm, hp, rfl⟩ := decode_ok h
  rw [encode, descriptor_assemble hm hop, payload_assemble _ hw hp, append_descriptorOf_payloadOf hw hl]

end Sys2Proof
end

section
/-! PROOFS. Which packets and operand values are illegal: a packet that does not decode (UndecodablePacketIsIllegal),
the listed operand values (ValueLegality, IllFormedCommandIsIllegal), and reserved encoding space
(ReservedSpaceIsIllegal). -/

namespace Sys2Proof.Machine

/-! ### A packet on the command port (30 R80) -/

theorem runPacket_of_error {pkt : Bytes} {e : DecodeError} (h : decode pkt = .error e) (s : State) :
    runPacket pkt s = .next (s.raise .illegalCommand) := by
  rw [runPacket, h]
  rfl

theorem runPacket_of_ok {pkt : Bytes} {i : Instr} (h : decode pkt = .ok i) (s : State) :
    runPacket pkt s = exec i s := by
  rw [runPacket, h]

/-- Settles O6: raising IllegalCommand is the response with R1 = 0 and no payload. -/
theorem undecodablePacketIsIllegal : Obligations.UndecodablePacketIsIllegal := by
  intro s pkt rest e hinbox hw hl hdec
  exact ⟨(step_issue hinbox hw hl).trans (runPacket_of_error hdec _), rfl⟩

/-- Where no payload belongs, a longer packet is no command (30 R79, last row). -/
theorem runPacket_of_unexpected_payload {pkt : Bytes} (hop : fieldOP (descriptorOf pkt) ≠ 0x21) (hl : pkt.len ≠ 32)
    (s : State) : runPacket pkt s = .next (s.raise .illegalCommand) := by
  cases hdec : decode pkt with
  | error e => exact runPacket_of_error hdec s
  | ok i =>
    obtain ⟨op, -, hbyte, -, hp, -⟩ := decode_ok hdec
    obtain rfl := hp.resolve_right hl
    exact absurd hbyte hop

/-! ### When a command answers IllegalCommand (30 R79) -/

theorem fail_eq_raise_iff {s : State} {e e' : CmdError} : fail s e = .next (s.raise e') ↔ e = e' := by
  constructor
  · intro h
    exact Status.error.inj (status_of_fail h rfl).symm
  · rintro rfl
    rfl

/-- A command that ends with OK does not answer with an error. -/
theorem finishWith_ne_raise {s t : State} (ht : t.responses = s.responses) (r1 : Word) (p : Bytes) (e : CmdError) :
    finishWith t r1 p ≠ .next (s.raise e) := by
  intro h
  have hr : (t.respond .ok r1 p).responses = s.responses ++ [⟨.ok, r1, p⟩] := congrArg (· ++ [_]) ht
  cases status_of_fail h.symm hr

theorem finish_ne_raise {s t : State} (ht : t.responses = s.responses) (r1 : Word) (e : CmdError) :
    finish t r1 ≠ .next (s.raise e) := finishWith_ne_raise ht r1 Memory.empty e

theorem legalField_eq_false_iff {b : BitVec 7} {n : BitVec 32} {s : State} :
    legalField b n s = false ↔
      b.toNat = 0 ∨ s.cfg.W < b.toNat ∨ s.cfg.W * s.ws.len < n.toNat * b.toNat := by
  rw [← Bool.not_eq_true, legalField_iff]
  omega

theorem execBfGet_illegal_iff (b : BitVec 7) (n : BitVec 32) (index : Word) (s : State) :
    execBfGet b n index s = .next (s.raise .illegalCommand) ↔ legalField b n s = false := by
  obtain ⟨hl, h⟩ | ⟨hl, -, h⟩ | ⟨hl, -, h⟩ := execBfGet_cases b n index s <;> rw [h, hl]
  · exact iff_of_true rfl rfl
  · exact iff_of_false (mt fail_eq_raise_iff.1 nofun) nofun
  · exact iff_of_false (finish_ne_raise rfl _ _) nofun

theorem execBfSet_illegal_iff (b : BitVec 7) (n : BitVec 32) (index value : Word) (s : State) :
    execBfSet b n index value s = .next (s.raise .illegalCommand) ↔ legalField b n s = false := by
  obtain ⟨hl, h⟩ | ⟨hl, -, h⟩ | ⟨hl, -, -, h⟩ | ⟨hl, -, -, h⟩ := execBfSet_cases b n index value s <;> rw [h, hl]
  · exact iff_of_true rfl rfl
  · exact iff_of_false (mt fail_eq_raise_iff.1 nofun) nofun
  · exact iff_of_false (mt fail_eq_raise_iff.1 nofun) nofun
  · exact iff_of_false (finish_ne_raise (State.setWs_responses s _) _ _) nofun

/-- A first check that fails with IllegalCommand is the only way to that answer, where nothing after it gives it. -/
theorem ite_fail_illegal_iff {s : State} {c : Prop} [Decidable c] {x : Result}
    (hx : x ≠ .next (s.raise .illegalCommand)) :
    (if c then fail s .illegalCommand else x) = .next (s.raise .illegalCommand) ↔ c := by
  split
  · next hc => exact iff_of_true rfl hc
  · next hc => exact iff_of_false hx hc

/-- A further check that fails with another error does not answer IllegalCommand. -/
theorem ite_fail_ne_illegal {s : State} {c : Prop} [Decidable c] {e : CmdError} {x : Result}
    (he : e ≠ .illegalCommand) (hx : x ≠ .next (s.raise .illegalCommand)) :
    (if c then fail s e else x) ≠ .next (s.raise .illegalCommand) := by
  split
  · exact mt fail_eq_raise_iff.1 he
  · exact hx

theorem execOvWrite_illegal_iff (hs c cs : Word) (p : Bytes) (s : State) :
    execOvWrite hs c cs p s = .next (s.raise .illegalCommand) ↔
      cs.toNat = 0 ∨ p.len ≠ hs.toNat + c.toNat * cs.toNat := by
  rw [execOvWrite_eq]
  exact ite_fail_illegal_iff <| ite_fail_ne_illegal nofun <| ite_fail_ne_illegal nofun <|
    ite_fail_ne_illegal nofun <| finish_ne_raise (State.setBuf_responses s _) _ _

theorem execOvRead_illegal_iff (hs cs : Word) (s : State) :
    execOvRead hs cs s = .next (s.raise .illegalCommand) ↔ cs.toNat = 0 := by
  rw [execOvRead_eq]
  exact ite_fail_illegal_iff <| ite_fail_ne_illegal nofun <| ite_fail_ne_illegal nofun <|
    ite_fail_ne_illegal nofun <| ite_fail_ne_illegal nofun <| finishWith_ne_raise rfl _ _ _

theorem execOvSize_ne_illegal (hs c cs : Word) (s : State) :
    execOvSize hs c cs s ≠ .next (s.raise .illegalCommand) := by
  rw [execOvSize_eq]
  exact ite_fail_ne_illegal nofun (finish_ne_raise rfl _ _)

/-- Settles O7: each command's first check is the only one that answers IllegalCommand. -/
theorem valueLegality : Obligations.ValueLegality := fun s =>
  ⟨fun b n index => (execBfGet_illegal_iff b n index s).trans legalField_eq_false_iff,
    fun b n index value => (execBfSet_illegal_iff b n index value s).trans legalField_eq_false_iff,
    fun hs c cs p => execOvWrite_illegal_iff hs c cs p s,
    fun hs cs => execOvRead_illegal_iff hs cs s,
    fun hs c cs => execOvSize_ne_illegal hs c cs s,
    fun _ hl hop => runPacket_of_unexpected_payload hop (Nat.ne_of_gt hl) s⟩

/-! ### Commands that are legal nowhere (30 R79) -/

/-- A width outside 1 to 64 is outside 1 to W. -/
theorem legalField_of_fieldWidthWf {b : BitVec 7} (h : fieldWidthWf b = false) (n : BitVec 32) (s : State) :
    legalField b n s = false := by
  have hW := W_le s.cfg
  rw [fieldWidthWf, Bool.and_eq_false_iff, decide_eq_false_iff_not, decide_eq_false_iff_not] at h
  exact legalField_eq_false_iff.2 (by omega)

theorem toNat_eq_zero_of_childSizeWf {cs : Word} (h : childSizeWf cs = false) : cs.toNat = 0 := by
  rw [childSizeWf, decide_eq_false_iff_not] at h
  omega

/-- Settles O8: each check of well-formedness that can fail is one the command itself begins with. -/
theorem illFormedCommandIsIllegal : Obligations.IllFormedCommandIsIllegal := by
  intro i s hp h
  cases i with
  | bfGet b n index => exact (execBfGet_illegal_iff b n index s).2 (legalField_of_fieldWidthWf h n s)
  | bfSet b n index value => exact (execBfSet_illegal_iff b n index value s).2 (legalField_of_fieldWidthWf h n s)
  | ovWrite hs c cs p =>
    have hp : p.wf = true := hp
    rw [Instr.wellFormed, hp, Bool.and_true, Bool.and_eq_false_iff] at h
    refine (execOvWrite_illegal_iff hs c cs p s).2 (h.imp toNat_eq_zero_of_childSizeWf fun hlen => ?_)
    exact of_decide_eq_false hlen
  | ovRead hs cs => exact (execOvRead_illegal_iff hs cs s).2 (toNat_eq_zero_of_childSizeWf h)
  | tsCompose | tsDecompose | tsGet | tsSet | ovSize => cases h

/-! ### Reserved encoding space (30 R81) -/

theorem byte_mem_table (op : Opcode) :
    op.byte ∈ ([0x01, 0x02, 0x10, 0x11, 0x12, 0x13, 0x20, 0x21, 0x22] : List Byte) := by
  cases op <;> decide

/-- The two commands with a width answer IllegalCommand when it is 0 or above W. -/
theorem exec_assemble_of_illegal_width {op : Opcode} {d : BitVec 256} {s : State} (p : Bytes)
    (hop : op.byte ∈ ([0x01, 0x02] : List Byte)) (hbw : (fieldBW d).toNat = 0 ∨ s.cfg.W < (fieldBW d).toNat) :
    exec (assemble op d p) s = .next (s.raise .illegalCommand) := by
  have hl : legalField (fieldBW d) (fieldNS d) s = false := legalField_eq_false_iff.2 (hbw.imp_right .inl)
  cases op with
  | bfGet => exact (execBfGet_illegal_iff _ _ _ s).2 hl
  | bfSet => exact (execBfSet_illegal_iff _ _ _ _ s).2 hl
  | _ => exact absurd hop (by decide)

/-- Settles O4: a packet of a row has the row's zero fields and payload, so each listed packet does not decode, but
for a width the command itself refuses. -/
theorem reservedSpaceIsIllegal : Obligations.ReservedSpaceIsIllegal := by
  intro s pkt rest hinbox hw hl hcase
  rw [step_issue hinbox hw hl]
  cases hdec : decode pkt with
  | error e => exact runPacket_of_error hdec _
  | ok i =>
    obtain ⟨op, -, hop, hm, hp, rfl⟩ := decode_ok hdec
    rw [hop] at hcase
    obtain h | h | ⟨hb, h⟩ | ⟨hb, h⟩ | ⟨hb, h⟩ | ⟨hb, h⟩ | ⟨hb, h⟩ | ⟨hb, h⟩ | ⟨hb, h⟩ := hcase
    · exact absurd (byte_mem_table op) h
    · exact absurd (reserved_of_row hm) h
    · exact absurd h (not_or.2 ⟨not_not_intro (fieldBW_of_row hm hb), not_not_intro (fieldNS_of_row hm hb)⟩)
    · exact absurd (getLsbD_var_of_row hm hb) (by rw [h]; decide)
    · exact absurd (fieldQ1_of_row hm hb) h
    · exact absurd (fieldQ2_of_row hm hb) h
    · exact absurd (fieldQ3_of_row hm hb) h
    · exact runPacket_of_unexpected_payload (hop ▸ hb) h _
    · rw [runPacket_of_ok hdec]
      exact exec_assemble_of_illegal_width _ hb h

end Sys2Proof.Machine
end

section
/-! PROOFS. The bit_field_codec: where a sample lies and when it crosses (SamplePositionFacts), the checks in order
(FieldChecks), and both commands as operations on the stream bit string (BitStringCharacterisation, SetThenGet,
SamplesAreIndependent). -/

namespace Sys2Proof.Machine

/-! ### The position of a sample (41 R100) -/

theorem remainderBits_pos_iff {W B index : Nat} (hW : 0 < W) (hB : 1 ≤ B) :
    0 < (samplePosition W B index).remainderBits ↔ W < (samplePosition W B index).bitOffset + B := by
  obtain ⟨-, -, -, hfit, hsum, -, hcross⟩ := samplePosition_bounds (index := index) hW hB
  constructor
  · intro hr
    have hfull := hcross hr
    omega
  · omega

/-- If B divides W, the offset is a multiple of B below W, so the whole sample fits above it. -/
theorem remainderBits_of_dvd {W B index : Nat} (hW : 0 < W) (hB : 1 ≤ B) (hdvd : B ∣ W) :
    (samplePosition W B index).remainderBits = 0 := by
  obtain ⟨hoff, -⟩ := samplePosition_bounds (index := index) hW hB
  have hmul : B ∣ (samplePosition W B index).bitOffset := (Nat.dvd_mod_iff hdvd).2 (Nat.dvd_mul_right B index)
  have hfit : (samplePosition W B index).bitOffset + B ≤ W :=
    Nat.le_of_lt_add_of_dvd (Nat.add_lt_add_right hoff B) (Nat.dvd_add hmul dvd_rfl) hdvd
  exact Nat.eq_zero_of_not_pos fun hr => Nat.not_lt.2 hfit ((remainderBits_pos_iff hW hB).1 hr)

/-- Settles O10: the formulas are the definition, the ranges its bounds, and the crossing condition is arithmetic. -/
theorem samplePositionFacts : Obligations.SamplePositionFacts := by
  intro cfg B index hB hBW
  have hW := W_pos cfg
  obtain ⟨hoff, hfirst, -, -, hsum, -, -⟩ := samplePosition_bounds (index := index) hW hB
  refine ⟨rfl, rfl, hoff, rfl, hfirst, rfl, by omega, remainderBits_pos_iff hW hB, remainderBits_of_dvd hW hB,
    fun hi => ?_⟩
  calc B * index ≤ 64 * index := Nat.mul_le_mul_right index (hBW.trans (W_le cfg))
    _ < 2 ^ 38 := by omega

/-! ### The checks and their order (41 R101, R104) -/

/-- The ways BF.SET can end, its three checks in order (41 R104). -/
theorem execBfSet_eq_ite (b : BitVec 7) (n : BitVec 32) (index value : Word) (s : State) :
    execBfSet b n index value s =
      if legalField b n s = false then fail s .illegalCommand
      else if n.toNat ≤ index.toNat then fail s .indexOutOfRange
      else if 2 ^ b.toNat ≤ value.toNat then fail s .valueOutOfRange
      else finish (s.setWs (wsAfterSet s b index value)) 0 := by
  obtain ⟨hl, h⟩ | ⟨hl, hi, h⟩ | ⟨hl, hi, hv, h⟩ | ⟨hl, hi, hv, h⟩ := execBfSet_cases b n index value s
  · rw [h, if_pos hl]
  · rw [h, if_neg (by simp [hl]), if_pos hi]
  · rw [h, if_neg (by simp [hl]), if_neg (Nat.not_le.2 hi), if_pos hv]
  · rw [h, if_neg (by simp [hl]), if_neg (Nat.not_le.2 hi), if_neg (Nat.not_le.2 hv)]

/-- Settles O11: each clause picks its branch of the two commands, and a checked sample lies inside WS. -/
theorem fieldChecks : Obligations.FieldChecks := by
  intro s b n index value
  simp only [exec, execBfGet_eq_ite, execBfSet_eq_ite]
  refine ⟨fun hl => ?_, fun hl hi => ?_, fun hl hi hv => ?_, fun hl hi => ?_⟩
  · rw [if_pos hl, if_pos hl]
    exact ⟨rfl, rfl⟩
  · have hlegal : ¬ legalField b n s = false := by simp [hl]
    rw [if_neg hlegal, if_neg hlegal, if_pos hi, if_pos hi]
    exact ⟨rfl, rfl⟩
  · rw [if_neg (by simp [hl]), if_neg (Nat.not_le.2 hi), if_pos hv]
    rfl
  · obtain ⟨hB, -, hNB⟩ := legalField_iff.1 hl
    exact samplePosition_inside (W_pos s.cfg) hB hNB hi

/-! ### The sample BF.GET reads, as a number and as stream bits (41 R107) -/

theorem mod_two_pow_eq_sum_getLsbD {w : Nat} (v : BitVec w) (n : Nat) :
    v.toNat % 2 ^ n = ∑ t ∈ Finset.range n, if v.getLsbD t then 2 ^ t else 0 := by
  induction n with
  | zero => rw [pow_zero, Nat.mod_one, Finset.sum_range_zero]
  | succ n ih =>
    have hbit : v.toNat / 2 ^ n % 2 = if v.getLsbD n then 1 else 0 := by
      rw [← Nat.toNat_testBit, ← BitVec.getLsbD]
      cases v.getLsbD n <;> rfl
    rw [Nat.mod_pow_succ, ih, Finset.sum_range_succ, hbit, mul_ite, mul_one, mul_zero]

section SampleRead

variable {s : State} {b : BitVec 7} (hB : 1 ≤ b.toNat) (hBW : b.toNat ≤ s.cfg.W)
include hB hBW

theorem sampleRead_lt (index : Word) : (sampleRead s b index).toNat < 2 ^ b.toNat :=
  toNat_lt_of_getLsbD _ fun t ht => by
    rw [getLsbD_sampleRead index hB hBW, decide_eq_false (Nat.not_lt.2 ht), Bool.false_and]

theorem getLsbD_sampleRead_of_lt (index : Word) {t : Nat} (ht : t < b.toNat) :
    (sampleRead s b index).getLsbD t = s.streamBit (b.toNat * index.toNat + t) := by
  rw [getLsbD_sampleRead index hB hBW, decide_eq_true ht, Bool.true_and]

theorem toNat_sampleRead (index : Word) :
    (sampleRead s b index).toNat =
      ∑ t ∈ Finset.range b.toNat, if s.streamBit (b.toNat * index.toNat + t) then 2 ^ t else 0 := by
  rw [← Nat.mod_eq_of_lt (sampleRead_lt hB hBW index), mod_two_pow_eq_sum_getLsbD]
  refine Finset.sum_congr rfl fun t ht => ?_
  rw [getLsbD_sampleRead_of_lt hB hBW index (Finset.mem_range.1 ht)]

/-- The sample read is the one B-bit number whose bits the stream holds there. -/
theorem sampleRead_eq_of_streamBit {index v : Word} (hv : v.toNat < 2 ^ b.toNat)
    (hbits : ∀ t, t < b.toNat → s.streamBit (b.toNat * index.toNat + t) = v.getLsbD t) :
    sampleRead s b index = v := by
  apply BitVec.eq_of_toNat_eq
  rw [toNat_sampleRead hB hBW, ← Nat.mod_eq_of_lt hv, mod_two_pow_eq_sum_getLsbD]
  refine Finset.sum_congr rfl fun t ht => ?_
  rw [hbits t (Finset.mem_range.1 ht)]

end SampleRead

/-! ### The stream after a successful BF.SET, and the samples in it (41 R106 to R108) -/

/-- The bits of a sample lie outside the run of every sample of another index. -/
theorem mul_add_lt_or_add_le_of_ne {B i j t : Nat} (hij : j ≠ i) (ht : t < B) :
    B * j + t < B * i ∨ B * i + B ≤ B * j + t := by
  rcases Nat.lt_or_gt_of_ne hij with hlt | hgt
  · have hrun : B * j + B ≤ B * i := Nat.mul_le_mul_left B (Nat.succ_le_of_lt hlt)
    exact .inl (by omega)
  · have hrun : B * i + B ≤ B * j := Nat.mul_le_mul_left B (Nat.succ_le_of_lt hgt)
    exact .inr (by omega)

section AfterSet

variable {s : State} {b : BitVec 7} {n : BitVec 32} {index value : Word} (hw : s.ws.wf = true)
  (hl : legalField b n s = true) (hi : index.toNat < n.toNat) (hv : value.toNat < 2 ^ b.toNat)
include hw hl hi hv

theorem streamBit_afterSet_inside {t : Nat} (ht : t < b.toNat) :
    (s.setWs (wsAfterSet s b index value)).streamBit (b.toNat * index.toNat + t) = value.getLsbD t := by
  obtain ⟨hB, hBW, hNB⟩ := legalField_iff.1 hl
  obtain ⟨hin, -⟩ := samplePosition_inside (W_pos s.cfg) hB hNB hi
  rw [streamBit_afterSet hw hB hBW hv hin, if_pos (by omega), Nat.add_sub_cancel_left]

theorem streamBit_afterSet_outside {u : Nat}
    (hu : u < b.toNat * index.toNat ∨ b.toNat * index.toNat + b.toNat ≤ u) :
    (s.setWs (wsAfterSet s b index value)).streamBit u = s.streamBit u := by
  obtain ⟨hB, hBW, hNB⟩ := legalField_iff.1 hl
  obtain ⟨hin, -⟩ := samplePosition_inside (W_pos s.cfg) hB hNB hi
  rw [streamBit_afterSet hw hB hBW hv hin, if_neg (by omega)]

theorem sampleRead_afterSet_same : sampleRead (s.setWs (wsAfterSet s b index value)) b index = value := by
  obtain ⟨hB, hBW, -⟩ := legalField_iff.1 hl
  exact sampleRead_eq_of_streamBit (s := s.setWs (wsAfterSet s b index value)) hB hBW hv fun t ht =>
    streamBit_afterSet_inside hw hl hi hv ht

theorem sampleRead_afterSet_other {j : Word} (hj : j ≠ index) :
    sampleRead (s.setWs (wsAfterSet s b index value)) b j = sampleRead s b j := by
  obtain ⟨hB, hBW, -⟩ := legalField_iff.1 hl
  refine sampleRead_eq_of_streamBit (s := s.setWs (wsAfterSet s b index value)) hB hBW
    (sampleRead_lt hB hBW j) fun t ht => ?_
  rw [getLsbD_sampleRead_of_lt hB hBW j ht]
  exact streamBit_afterSet_outside hw hl hi hv (mul_add_lt_or_add_le_of_ne (BitVec.toNat_ne.1 hj) ht)

end AfterSet

/-- Whether a descriptor is legal depends on M, not on what WS holds. -/
theorem legalField_setWs {s : State} {m : Words} (hM : m.len = s.ws.len) (b : BitVec 7) (n : BitVec 32) :
    legalField b n (s.setWs m) = legalField b n s :=
  legalField_congr (s := s) (s' := s.setWs m) rfl hM b n

/-- BF.GET after a successful BF.SET under the same descriptor passes the same checks. -/
theorem execBfGet_afterSet {s : State} {b : BitVec 7} {n : BitVec 32} {j : Word} (hl : legalField b n s = true)
    (hj : j.toNat < n.toNat) (index value : Word) :
    execBfGet b n j ((s.setWs (wsAfterSet s b index value)).respond .ok 0 Memory.empty) =
      finish ((s.setWs (wsAfterSet s b index value)).respond .ok 0 Memory.empty)
        (sampleRead (s.setWs (wsAfterSet s b index value)) b j) :=
  execBfGet_eq ((legalField_setWs (wsAfterSet_len s b index value) b n).trans hl) hj

/-- Settles O12: the sample read is its stream bits, and the stream after a store is known bit by bit. -/
theorem bitStringCharacterisation : Obligations.BitStringCharacterisation := by
  intro s b n index hs hB hBW hNB hi
  have hw := State.ws_wf hs
  have hl := legalField_iff.2 ⟨hB, hBW, hNB⟩
  refine ⟨⟨_, execBfGet_eq hl hi, toNat_sampleRead hB hBW index⟩, fun value hv =>
    ⟨_, execBfSet_eq hl hi hv, rfl, wsAfterSet_len s b index value, rfl, fun t ht => ?_, fun u hu => ?_⟩⟩
  · exact streamBit_afterSet_inside hw hl hi hv ht
  · exact streamBit_afterSet_outside hw hl hi hv hu

/-- Settles O14: the stored sample is read back whole. -/
theorem setThenGet : Obligations.SetThenGet := by
  intro s b n index value hs hl hi hv
  have hread := sampleRead_afterSet_same (State.ws_wf hs) hl hi hv
  exact ⟨_, execBfSet_eq hl hi hv, (execBfGet_afterSet hl hi index value).trans (congrArg (finish _) hread)⟩

/-- Settles O15: the bits of another sample lie outside those the store changes. -/
theorem samplesAreIndependent : Obligations.SamplesAreIndependent := by
  intro s b n index j value hs hl hi hj hne hv
  have hread := sampleRead_afterSet_other (State.ws_wf hs) hl hi hv hne
  exact ⟨_, _, execBfSet_eq hl hi hv, execBfGet_eq hl hj,
    (execBfGet_afterSet hl hj index value).trans (congrArg (finish _) hread)⟩

end Sys2Proof.Machine
end

section
/-! PROOFS. The timestamp_codec: the halves of a timestamp (ComposeResult, DecomposeResult, ComposeDecomposeInverse),
its fields under a layout record (TsGetResult, TsSetResult), and what a store and a load keep (TimestampInvariants,
TimestampInvariantsAnyLayout, PlainVariantRedundancy). -/

namespace Sys2Proof.Machine

/-! ### What each command answers (42 R120, R121, R125, R126) -/

@[simp] theorem exec_tsCompose (low high : Half) (s : State) :
    exec (.tsCompose low high) s = .next (s.respond .ok (joinHalves low high) Memory.empty) := rfl

@[simp] theorem exec_tsDecompose (ts : Word) (s : State) :
    exec (.tsDecompose ts) s = .next (s.respond .ok ts Memory.empty) :=
  congrArg (finish s) (joinHalves_split ts)

@[simp] theorem exec_tsGet_plain (low high : Half) (s : State) :
    exec (.tsGet .plain low high) s = .next (s.respond .ok (joinHalves low high) Memory.empty) := rfl

@[simp] theorem exec_tsGet_ext (low high : Half) (s : State) :
    exec (.tsGet .ext low high) s =
      .next (s.respond .ok (extTimestamp s.cfg.tsLayout low high) Memory.empty) := rfl

@[simp] theorem exec_tsSet_plain (low high : Half) (ts : Word) (s : State) :
    exec (.tsSet .plain low high ts) s = .next (s.respond .ok ts Memory.empty) :=
  congrArg (finish s) (joinHalves_split ts)

@[simp] theorem exec_tsSet_ext (low high : Half) (ts : Word) (s : State) :
    exec (.tsSet .ext low high ts) s =
      .next (s.respond .ok (joinHalves (lowHalf ts) (extHigh s.cfg.tsLayout high ts)) Memory.empty) := rfl

/-! ### The fields of the timestamp TS.GET answers (42 R125) -/

theorem extTimestamp_low (l : TsLayout) (low high : Half) : (extTimestamp l low high).extractLsb' 0 32 = low := by
  apply BitVec.eq_of_getLsbD_eq
  intro i hi
  rw [getLsbD_field _ _ hi, getLsbD_extTimestamp, Nat.zero_add, if_pos hi]

theorem extTimestamp_mid (l : TsLayout) (low high : Half) :
    (extTimestamp l low high).extractLsb' 32 16 = (extFieldsOf l high).mid := by
  apply BitVec.eq_of_getLsbD_eq
  intro i hi
  rw [getLsbD_field _ _ hi, getLsbD_extTimestamp, if_neg (by omega), if_pos (by omega), Nat.add_sub_cancel_left]

theorem extTimestamp_ext (l : TsLayout) (low high : Half) :
    (extTimestamp l low high).extractLsb' 48 15 = if (extFieldsOf l high).en then (extFieldsOf l high).ext else 0 := by
  apply BitVec.eq_of_getLsbD_eq
  intro i hi
  rw [getLsbD_field _ _ hi, getLsbD_extTimestamp, if_neg (by omega), if_neg (by omega), Nat.add_sub_cancel_left]
  cases (extFieldsOf l high).en with
  | false => exact BitVec.getLsbD_zero.symm
  | true => exact Bool.true_and _

theorem getLsbD_extTimestamp_63 (l : TsLayout) (low high : Half) : (extTimestamp l low high).getLsbD 63 = false := by
  rw [getLsbD_extTimestamp, if_neg (by omega), if_neg (by omega), BitVec.getLsbD_of_ge _ _ (by omega), Bool.and_false]

/-! ### A load after a store, and a store after a store, under a well-formed layout record (42 R127) -/

/-- TS.GET of what TS.SET stored: the timestamp less the bits that cannot be represented. -/
theorem toNat_extTimestamp_extHigh {l : TsLayout} (hl : l.wf = true) (high : Half) (ts : Word) :
    (extTimestamp l (lowHalf ts) (extHigh l high ts)).toNat =
      ts.toNat % (if (extFieldsOf l high).en then 2 ^ 63 else 2 ^ 48) := by
  rw [← apply_ite (2 ^ ·)]
  apply Nat.eq_of_testBit_eq
  intro i
  rw [Nat.testBit_mod_two_pow, ← BitVec.getLsbD, ← BitVec.getLsbD, getLsbD_extTimestamp, extFieldsOf_extHigh hl]
  by_cases hlow : i < 32
  · rw [if_pos hlow, lowHalf, getLsbD_field _ _ hlow, Nat.zero_add,
      decide_eq_true (by split <;> omega), Bool.true_and]
  by_cases hmid : i < 48
  · rw [if_neg hlow, if_pos hmid, getLsbD_field _ _ (by omega), Nat.add_sub_cancel' (by omega),
      decide_eq_true (by split <;> omega), Bool.true_and]
  rw [if_neg hlow, if_neg hmid]
  cases (extFieldsOf l high).en with
  | false => simp [hmid]
  | true =>
    rw [if_pos rfl, if_pos rfl, BitVec.getLsbD_extractLsb', Nat.add_sub_cancel' (by omega), Bool.true_and,
      decide_eq_decide.2 (show i - 48 < 15 ↔ i < 63 by omega)]

theorem extHigh_extHigh {l : TsLayout} (hl : l.wf = true) (high : Half) (ts : Word) :
    extHigh l (extHigh l high ts) ts = extHigh l high ts := by
  rw [extHigh, extFieldsOf_extHigh hl, extHigh]
  cases (extFieldsOf l high).en
  · rfl
  · rfl

/-! ### The layout of 42 R124 -/

theorem r124_wf : TsLayout.r124.wf = true := by decide

theorem extFieldsOf_r124 (high : Half) :
    extFieldsOf TsLayout.r124 high = ⟨high.extractLsb' 0 16, high.extractLsb' 16 15, high.getLsbD 31⟩ := by
  simp only [extFieldsOf, TsLayout.r124, beq_true]

theorem extractLsb'_extractLsb' {w start len start' len' : Nat} (v : BitVec w) (h : start' + len' ≤ len) :
    (v.extractLsb' start len).extractLsb' start' len' = v.extractLsb' (start + start') len' := by
  apply BitVec.eq_of_getLsbD_eq
  intro i hi
  rw [getLsbD_field _ _ hi, getLsbD_field _ _ (by omega), getLsbD_field _ _ hi, Nat.add_assoc]

/-- The fields of a record's high half, numbered as bits of R1 (42 R126). -/
theorem extFieldsOf_r124_record (r : Word) :
    extFieldsOf TsLayout.r124 (r.extractLsb' 32 32) = ⟨r.extractLsb' 32 16, r.extractLsb' 48 15, r.getLsbD 63⟩ := by
  rw [extFieldsOf_r124, extractLsb'_extractLsb' r (by omega), extractLsb'_extractLsb' r (by omega),
    getLsbD_field r 32 (by omega)]

/-! ### The obligations -/

/-- Settles O18: the answer is the two halves joined, high above low. -/
theorem composeResult : Obligations.ComposeResult := fun s low high =>
  ⟨rfl, _, exec_tsCompose low high s, toNat_joinHalves low high⟩

/-- Settles O19: the answer is the timestamp itself. -/
theorem decomposeResult : Obligations.DecomposeResult := by
  intro s ts
  refine ⟨rfl, ts, exec_tsDecompose ts s, ?_, ?_, rfl⟩
  · rw [BitVec.extractLsb'_toNat, Nat.shiftRight_zero]
  · rw [BitVec.extractLsb'_toNat, Nat.shiftRight_eq_div_pow]
    omega

/-- Settles O20: joining the halves of a timestamp, and halving a joined one. -/
theorem composeDecomposeInverse : Obligations.ComposeDecomposeInverse := by
  refine ⟨fun s s' ts => ⟨ts, exec_tsDecompose ts s, ?_⟩, fun s s' low high => ?_⟩
  · exact congrArg (finish s') (joinHalves_split ts)
  · exact ⟨_, _, exec_tsCompose low high s, exec_tsDecompose _ s', joinHalves_low low high, joinHalves_high low high⟩

/-- Settles O21: the halves under plain, the fields of the answer under ext. -/
theorem tsGetResult : Obligations.TsGetResult := by
  intro s low high hl
  refine ⟨rfl, rfl, ⟨_, exec_tsGet_plain low high s, joinHalves_low low high, joinHalves_high low high⟩,
    _, exec_tsGet_ext low high s, extTimestamp_low _ low high, ?_, ?_, getLsbD_extTimestamp_63 _ low high⟩
  · rw [extTimestamp_mid, hl, extFieldsOf_r124]
  · rw [extTimestamp_ext, hl, extFieldsOf_r124]

/-- Settles O22: the timestamp itself under plain; under ext the fields of the new high half. -/
theorem tsSetResult : Obligations.TsSetResult := by
  intro s low high ts hl
  have hfields := extFieldsOf_extHigh r124_wf high ts
  rw [← joinHalves_high (lowHalf ts) (extHigh TsLayout.r124 high ts), extFieldsOf_r124_record, extFieldsOf_r124,
    ExtFields.mk.injEq] at hfields
  refine ⟨rfl, rfl, ⟨ts, exec_tsSet_plain low high ts s, rfl, rfl⟩, _, exec_tsSet_ext low high ts s,
    joinHalves_low _ _, ?_⟩
  rw [hl]
  exact hfields

/-- Settles O24: the fields of the new record are known, and so are those of a load after a store. -/
theorem timestampInvariantsAnyLayout : Obligations.TimestampInvariantsAnyLayout := by
  intro s low high ts hl
  have hfields := extFieldsOf_extHigh hl high ts
  refine ⟨_, _, exec_tsSet_ext low high ts s, ?_, fun hen => ?_, exec_tsGet_ext _ _ s, ?_⟩
  · rw [joinHalves_high, hfields]
  · rw [joinHalves_high, hfields, hen]
    rfl
  · rw [joinHalves_low, joinHalves_high, toNat_extTimestamp_extHigh hl]

/-- Settles O23: the fields TS.SET keeps and the load after it are those of any layout record; a second store finds
the fields of the first. -/
theorem timestampInvariants : Obligations.TimestampInvariants := by
  intro s low high ts hl
  have hwf : s.cfg.tsLayout.wf = true := hl ▸ r124_wf
  refine ⟨⟨ts, exec_tsSet_plain low high ts s, congrArg (finish s) (joinHalves_split ts),
    exec_tsSet_plain _ _ ts s⟩, ?_⟩
  have hfields := extFieldsOf_extHigh hwf high ts
  have hback := toNat_extTimestamp_extHigh hwf high ts
  rw [hl, extFieldsOf_r124, extFieldsOf_r124, ExtFields.mk.injEq] at hfields
  rw [hl, extFieldsOf_r124] at hback
  obtain ⟨-, hext, hen⟩ := hfields
  refine ⟨_, _, exec_tsSet_ext low high ts s, ?_, fun hclear => ?_, exec_tsGet_ext _ _ s, ?_, ?_⟩
  · rw [joinHalves_high, hl, hen]
  · rw [joinHalves_high, hl, hext, hclear]
    rfl
  · rw [joinHalves_low, joinHalves_high, hl, hback]
  · rw [exec_tsSet_ext, joinHalves_high, extHigh_extHigh hwf]

/-- Settles O25: both variants of a command answer the same word. -/
theorem plainVariantRedundancy : Obligations.PlainVariantRedundancy := fun s low high ts =>
  ⟨(exec_tsGet_plain low high s).trans (exec_tsCompose low high s).symm,
    (exec_tsSet_plain low high ts s).trans (exec_tsDecompose ts s).symm⟩

end Sys2Proof.Machine
end

section
/-! PROOFS. The overlay_serializer: the size of a record (OvSizeResult), what OV.WRITE stores and OV.READ returns
(OvWriteResult, OvReadResult), and how the three commands agree (WriteThenRead, MalformedOverlay, SizingLaw). -/

namespace Sys2Proof.Machine

/-! ### Sizes and the status of the newest response -/

/-- A size that fits the length type fits R1. -/
theorem toNat_ofNat_of_fits {cfg : Config} {x : Nat} (h : x < 2 ^ cfg.lenBits.bits) :
    (BitVec.ofNat 64 x).toNat = x := by
  rw [BitVec.toNat_ofNat]
  exact Nat.mod_eq_of_lt (lt_of_lt_of_le h (Nat.pow_le_pow_right (by omega) (lenBits_le cfg)))

/-- Byte `j` of child `i` lies inside the run of the children. -/
theorem child_byte_lt {n size i j : Nat} (hi : i < n) (hj : j < size) : i * size + j < n * size := by
  have hrun : (i + 1) * size ≤ n * size := Nat.mul_le_mul_right size hi
  rw [Nat.succ_mul] at hrun
  omega

/-- A record is at least its header and its count field. -/
theorem fixed_part_le_recordSize (cfg : Config) (hs c cs : Nat) : hs + cfg.countBytes ≤ recordSize cfg hs c cs :=
  Nat.le_add_right _ _

/-- A child more makes a longer record. -/
theorem recordSize_pred_lt (cfg : Config) (hs : Nat) {c cs : Nat} (hc : 1 ≤ c) (hcs : 1 ≤ cs) :
    recordSize cfg hs (c - 1) cs < recordSize cfg hs c cs :=
  Nat.add_lt_add_left (Nat.mul_lt_mul_of_pos_right (Nat.sub_one_lt_of_lt hc) hcs) _

@[simp] theorem State.lastStatus_respond (s : State) (st : Status) (r1 : Word) (p : Bytes) :
    (s.respond st r1 p).lastStatus = some st := by
  simp [State.lastStatus]

theorem lastStatus_of_fail {s t : State} {e : CmdError} (h : fail s e = .next t) :
    t.lastStatus = some (.error e) := by
  obtain rfl := Host.Outcome.next.inj h
  exact State.lastStatus_respond s _ _ _

/-! ### OV.SIZE (43 R142) -/

theorem exec_ovSize_of_fits {s : State} {hs c cs : Word}
    (hsize : recordSize s.cfg hs.toNat c.toNat cs.toNat < 2 ^ s.cfg.lenBits.bits) :
    exec (.ovSize hs c cs) s =
      .next (s.respond .ok (BitVec.ofNat 64 (recordSize s.cfg hs.toNat c.toNat cs.toNat)) Memory.empty) :=
  (execOvSize_eq hs c cs s).trans (if_neg (Nat.not_le.2 hsize))

theorem exec_ovSize_of_overflow {s : State} {hs c cs : Word}
    (hsize : 2 ^ s.cfg.lenBits.bits ≤ recordSize s.cfg hs.toNat c.toNat cs.toNat) :
    exec (.ovSize hs c cs) s = .next (s.raise .sizeOverflow) :=
  (execOvSize_eq hs c cs s).trans (if_pos hsize)

/-- An OK answer of OV.SIZE is the exact size, and the size fits. -/
theorem recordSize_of_exec_ovSize {s : State} {hs c cs r : Word}
    (h : exec (.ovSize hs c cs) s = .next (s.respond .ok r Memory.empty)) :
    recordSize s.cfg hs.toNat c.toNat cs.toNat < 2 ^ s.cfg.lenBits.bits ∧
      r.toNat = recordSize s.cfg hs.toNat c.toNat cs.toNat := by
  by_cases hsize : recordSize s.cfg hs.toNat c.toNat cs.toNat < 2 ^ s.cfg.lenBits.bits
  · have hresp := congrArg State.responses (Host.Outcome.next.inj ((exec_ovSize_of_fits hsize).symm.trans h))
    obtain rfl := congrArg Response.r1 (response_inj hresp)
    exact ⟨hsize, toNat_ofNat_of_fits hsize⟩
  · rw [exec_ovSize_of_overflow (Nat.le_of_not_lt hsize)] at h
    cases status_of_fail h rfl

/-- Settles O27: the two clauses are the two sides of the one check of the size. -/
theorem ovSizeResult : Obligations.OvSizeResult := fun _ _ _ _ =>
  ⟨rfl, fun hsize => ⟨_, exec_ovSize_of_fits hsize, toNat_ofNat_of_fits hsize⟩, exec_ovSize_of_overflow⟩

/-! ### OV.WRITE (43 R150) -/

section OvWriteChecks

variable {s : State} {hs c cs : Word} {p : Bytes} (hcs : 1 ≤ cs.toNat)
  (hlen : p.len = hs.toNat + c.toNat * cs.toNat)
include hcs hlen

theorem exec_ovWrite_of_large_count (hc : 2 ^ (8 * s.cfg.countBytes) ≤ c.toNat) :
    exec (.ovWrite hs c cs p) s = .next (s.raise .valueOutOfRange) := by
  rw [exec, execOvWrite_eq, if_neg (by omega), if_pos hc]
  rfl

variable (hc : c.toNat < 2 ^ (8 * s.cfg.countBytes))
include hc

theorem exec_ovWrite_of_overflow (hsize : 2 ^ s.cfg.lenBits.bits ≤ recordSize s.cfg hs.toNat c.toNat cs.toNat) :
    exec (.ovWrite hs c cs p) s = .next (s.raise .sizeOverflow) := by
  rw [exec, execOvWrite_eq, if_neg (by omega), if_neg (Nat.not_le.2 hc), if_pos hsize]
  rfl

variable (hsize : recordSize s.cfg hs.toNat c.toNat cs.toNat < 2 ^ s.cfg.lenBits.bits)
include hsize

theorem exec_ovWrite_of_short (hroom : s.buf.len < recordSize s.cfg hs.toNat c.toNat cs.toNat) :
    exec (.ovWrite hs c cs p) s = .next (s.raise .bufferTooShort) := by
  rw [exec, execOvWrite_eq, if_neg (by omega), if_neg (Nat.not_le.2 hc), if_neg (Nat.not_le.2 hsize), if_pos hroom]
  rfl

theorem exec_ovWrite_of_room (hroom : recordSize s.cfg hs.toNat c.toNat cs.toNat ≤ s.buf.len) :
    exec (.ovWrite hs c cs p) s = .next ((s.setBuf (bufAfterWrite s hs c cs p)).respond .ok 0 Memory.empty) := by
  rw [exec, execOvWrite_eq, if_neg (by omega), if_neg (Nat.not_le.2 hc), if_neg (Nat.not_le.2 hsize),
    if_neg (Nat.not_lt.2 hroom)]
  rfl

end OvWriteChecks

/-- An OV.WRITE that answers OK passed every check and stored its record. -/
theorem ovWrite_passed_of_ok {s t : State} {hs c cs : Word} {p : Bytes} (h : exec (.ovWrite hs c cs p) s = .next t)
    (hok : t.lastStatus = some .ok) :
    (1 ≤ cs.toNat ∧ p.len = hs.toNat + c.toNat * cs.toNat) ∧ c.toNat < 2 ^ (8 * s.cfg.countBytes) ∧
      recordSize s.cfg hs.toNat c.toNat cs.toNat < 2 ^ s.cfg.lenBits.bits ∧
      recordSize s.cfg hs.toNat c.toNat cs.toNat ≤ s.buf.len ∧
      t = (s.setBuf (bufAfterWrite s hs c cs p)).respond .ok 0 Memory.empty := by
  have hfail : ∀ e, fail s e ≠ .next t := fun e he => by cases (lastStatus_of_fail he).symm.trans hok
  rw [exec, execOvWrite_eq] at h
  split at h
  · exact absurd h (hfail _)
  next hlegal =>
  split at h
  · exact absurd h (hfail _)
  next hcount =>
  split at h
  · exact absurd h (hfail _)
  next hsize =>
  split at h
  · exact absurd h (hfail _)
  next hroom =>
  exact ⟨by omega, Nat.lt_of_not_le hcount, Nat.lt_of_not_le hsize, Nat.le_of_not_lt hroom,
    (Host.Outcome.next.inj h).symm⟩

section StoredRecord

variable {s : State} {hs c cs : Word} {p : Bytes} (hb : s.buf.wf = true) (hp : p.wf = true)
  (hroom : recordSize s.cfg hs.toNat c.toNat cs.toNat ≤ s.buf.len)
include hb hp hroom

theorem get_bufAfterWrite_header {j : Nat} (hj : j < hs.toNat) : (bufAfterWrite s hs c cs p).get j = p.get j := by
  rw [get_bufAfterWrite hb hp hroom, if_pos hj]

theorem get_bufAfterWrite_count {j : Nat} (hj : j < s.cfg.countBytes) :
    (bufAfterWrite s hs c cs p).get (hs.toNat + j) = (encCount s.cfg c.toNat).get j := by
  rw [get_bufAfterWrite hb hp hroom, if_neg (by omega), if_pos (by omega), Nat.add_sub_cancel_left]

/-- Behind the count field stand the payload's bytes behind the header. -/
theorem get_bufAfterWrite_children {j : Nat} (hj : j < c.toNat * cs.toNat) :
    (bufAfterWrite s hs c cs p).get (hs.toNat + s.cfg.countBytes + j) = p.get (hs.toNat + j) := by
  rw [get_bufAfterWrite hb hp hroom, if_neg (by omega), if_neg (by omega), recordSize, if_pos (by omega),
    Nat.add_right_comm, Nat.add_sub_cancel]

theorem get_bufAfterWrite_above {a : Nat} (ha : recordSize s.cfg hs.toNat c.toNat cs.toNat ≤ a) :
    (bufAfterWrite s hs c cs p).get a = s.buf.get a := by
  have hfixed := fixed_part_le_recordSize s.cfg hs.toNat c.toNat cs.toNat
  rw [get_bufAfterWrite hb hp hroom, if_neg (by omega), if_neg (by omega), if_neg (Nat.not_lt.2 ha)]

theorem slice_bufAfterWrite_count :
    (bufAfterWrite s hs c cs p).slice hs.toNat s.cfg.countBytes = encCount s.cfg c.toNat := by
  have hwf := bufAfterWrite_wf hb hp hroom
  refine Memory.ext_get (Memory.slice_wf hwf _ _) (encCount_wf _ _) (encCount_len _ _).symm fun j hj => ?_
  rw [Memory.slice_len] at hj
  rw [Memory.get_slice hwf, if_pos hj, get_bufAfterWrite_count hb hp hroom hj]

/-- The header and the children cut out of the stored record are the payload again (43 R160). -/
theorem append_slices_bufAfterWrite (hlen : p.len = hs.toNat + c.toNat * cs.toNat) :
    ((bufAfterWrite s hs c cs p).slice 0 hs.toNat).append
      ((bufAfterWrite s hs c cs p).slice (hs.toNat + s.cfg.countBytes) (c.toNat * cs.toNat)) = p := by
  have hwf := bufAfterWrite_wf hb hp hroom
  have hheader : (bufAfterWrite s hs c cs p).slice 0 hs.toNat = p.slice 0 hs.toNat :=
    slice_congr hp hwf fun j _ hj => get_bufAfterWrite_header hb hp hroom (by omega)
  have hchildren : (bufAfterWrite s hs c cs p).slice (hs.toNat + s.cfg.countBytes) (c.toNat * cs.toNat) =
      p.slice hs.toNat (c.toNat * cs.toNat) := by
    refine Memory.ext_get (Memory.slice_wf hwf _ _) (Memory.slice_wf hp _ _) rfl fun j hj => ?_
    rw [Memory.slice_len] at hj
    rw [Memory.get_slice hwf, Memory.get_slice hp, if_pos hj, if_pos hj, get_bufAfterWrite_children hb hp hroom hj]
  rw [hheader, hchildren, Memory.append_slices hp hlen]

end StoredRecord

/-- Settles O28: the checks in their order, and the stored bytes group by group. -/
theorem ovWriteResult : Obligations.OvWriteResult := by
  intro s hs c cs p hwf hp
  refine ⟨rfl, encode_len _, (execOvWrite_illegal_iff hs c cs p s).2, fun hcs hlen =>
    ⟨exec_ovWrite_of_large_count hcs hlen, exec_ovWrite_of_overflow hcs hlen, exec_ovWrite_of_short hcs hlen,
      fun hc hsize hroom => ?_⟩⟩
  have hb := State.buf_wf hwf
  refine ⟨_, exec_ovWrite_of_room hcs hlen hc hsize hroom, bufAfterWrite_len s hs c cs p,
    fun j => get_bufAfterWrite_header hb hp hroom, fun j => get_bufAfterWrite_count hb hp hroom,
    fun i j hi hj => ?_, fun a => get_bufAfterWrite_above hb hp hroom⟩
  rw [Nat.add_assoc _ (i * cs.toNat), Nat.add_assoc _ (i * cs.toNat)]
  exact get_bufAfterWrite_children hb hp hroom (child_byte_lt hi hj)

/-! ### OV.READ (43 R156) -/

section OvReadStages

variable {s : State} {hs cs : Word} (hcs : 1 ≤ cs.toNat)
include hcs

theorem exec_ovRead_of_fixed_part_overflow (hpre : 2 ^ s.cfg.lenBits.bits ≤ hs.toNat + s.cfg.countBytes) :
    exec (.ovRead hs cs) s = .next (s.raise .sizeOverflow) := by
  rw [exec, execOvRead_eq, if_neg (Nat.ne_of_gt hcs), if_pos hpre]
  rfl

theorem exec_ovRead_of_fixed_part_short (hpre : hs.toNat + s.cfg.countBytes < 2 ^ s.cfg.lenBits.bits)
    (hroom : s.buf.len < hs.toNat + s.cfg.countBytes) :
    exec (.ovRead hs cs) s = .next (s.raise .bufferTooShort) := by
  rw [exec, execOvRead_eq, if_neg (Nat.ne_of_gt hcs), if_neg (Nat.not_le.2 hpre), if_pos hroom]
  rfl

theorem exec_ovRead_of_overflow (hpre : hs.toNat + s.cfg.countBytes < 2 ^ s.cfg.lenBits.bits)
    (hroom : hs.toNat + s.cfg.countBytes ≤ s.buf.len)
    (hsize : 2 ^ s.cfg.lenBits.bits ≤ recordSize s.cfg hs.toNat (storedCount s hs.toNat) cs.toNat) :
    exec (.ovRead hs cs) s = .next (s.raise .sizeOverflow) := by
  rw [exec, execOvRead_eq, if_neg (Nat.ne_of_gt hcs), if_neg (Nat.not_le.2 hpre), if_neg (Nat.not_lt.2 hroom),
    if_pos hsize]
  rfl

variable (hsize : recordSize s.cfg hs.toNat (storedCount s hs.toNat) cs.toNat < 2 ^ s.cfg.lenBits.bits)
include hsize

theorem exec_ovRead_of_short (hpre : hs.toNat + s.cfg.countBytes ≤ s.buf.len)
    (hroom : s.buf.len < recordSize s.cfg hs.toNat (storedCount s hs.toNat) cs.toNat) :
    exec (.ovRead hs cs) s = .next (s.raise .bufferTooShort) := by
  have hfixed := fixed_part_le_recordSize s.cfg hs.toNat (storedCount s hs.toNat) cs.toNat
  rw [exec, execOvRead_eq, if_neg (Nat.ne_of_gt hcs), if_neg (by omega), if_neg (by omega),
    if_neg (Nat.not_le.2 hsize), if_pos hroom]
  rfl

theorem exec_ovRead_of_room (hroom : recordSize s.cfg hs.toNat (storedCount s hs.toNat) cs.toNat ≤ s.buf.len) :
    exec (.ovRead hs cs) s = .next (s.respond .ok (BitVec.ofNat 64 (storedCount s hs.toNat))
      ((s.buf.slice 0 hs.toNat).append
        (s.buf.slice (hs.toNat + s.cfg.countBytes) (storedCount s hs.toNat * cs.toNat)))) := by
  have hfixed := fixed_part_le_recordSize s.cfg hs.toNat (storedCount s hs.toNat) cs.toNat
  rw [exec, execOvRead_eq, if_neg (Nat.ne_of_gt hcs), if_neg (by omega), if_neg (by omega),
    if_neg (Nat.not_le.2 hsize), if_neg (Nat.not_lt.2 hroom)]
  rfl

end OvReadStages

/-- Two slices joined: the first `n` bytes are the first slice's. -/
theorem get_append_slices_left {m : Bytes} (hm : m.wf = true) (a b : Nat) {n k j : Nat} (hj : j < n) :
    ((m.slice a n).append (m.slice b k)).get j = m.get (a + j) := by
  rw [Memory.get_append (Memory.slice_wf hm _ _) (Memory.slice_wf hm _ _), Memory.slice_len, if_pos hj,
    Memory.get_slice hm, if_pos hj]

/-- Two slices joined: from byte `n` on they are the second slice's. -/
theorem get_append_slices_right {m : Bytes} (hm : m.wf = true) (a b : Nat) {n k j : Nat} (hj : j < k) :
    ((m.slice a n).append (m.slice b k)).get (n + j) = m.get (b + j) := by
  rw [Memory.get_append (Memory.slice_wf hm _ _) (Memory.slice_wf hm _ _), Memory.slice_len, if_neg (by omega),
    Nat.add_sub_cancel_left, Memory.get_slice hm, if_pos hj]

/-- Settles O29: the checks of the two stages in their order, and the payload cut out of BUF. -/
theorem ovReadResult : Obligations.OvReadResult := by
  intro s hs cs hwf
  refine ⟨rfl, (execOvRead_illegal_iff hs cs s).2, fun hcs =>
    ⟨exec_ovRead_of_fixed_part_overflow hcs, exec_ovRead_of_fixed_part_short hcs, exec_ovRead_of_overflow hcs,
      fun hpre hsize => exec_ovRead_of_short hcs hsize hpre, fun hsize hroom => ?_⟩⟩
  have hb := State.buf_wf hwf
  refine ⟨_, _, exec_ovRead_of_room hcs hsize hroom, ?_, Memory.append_wf (Memory.slice_wf hb _ _)
    (Memory.slice_wf hb _ _), ?_, fun j hj => ?_, fun i j hi hj => ?_⟩
  · rw [BitVec.toNat_ofNat]
    exact Nat.mod_eq_of_lt (decCount_lt_word s.cfg _)
  · rw [Memory.append_len, Memory.slice_len, Memory.slice_len, recordSize]
    omega
  · rw [get_append_slices_left hb _ _ hj, Nat.zero_add]
  · rw [Nat.add_assoc, get_append_slices_right hb _ _ (child_byte_lt hi hj), ← Nat.add_assoc]

/-! ### The three commands together -/

/-- OV.READ finds the count OV.WRITE stored (00 R15). -/
theorem storedCount_bufAfterWrite {s t : State} {hs c cs : Word} {p : Bytes} (hb : s.buf.wf = true)
    (hp : p.wf = true) (hroom : recordSize s.cfg hs.toNat c.toNat cs.toNat ≤ s.buf.len)
    (hc : c.toNat < 2 ^ (8 * s.cfg.countBytes)) (hcfg : t.cfg = s.cfg) (hbuf : t.buf = bufAfterWrite s hs c cs p) :
    storedCount t hs.toNat = c.toNat := by
  rw [storedCount, hcfg, hbuf, slice_bufAfterWrite_count hb hp hroom, decCount_encCount _ hc]

/-- Settles O30: the stored count is the one written, so OV.READ passes the checks OV.WRITE passed and cuts out what
was put in. -/
theorem writeThenRead : Obligations.WriteThenRead := by
  intro s hs c cs p t hwf hp hwrite hok
  obtain ⟨⟨hcs, hlen⟩, hc, hsize, hroom, ht⟩ := ovWrite_passed_of_ok hwrite hok
  have hb := State.buf_wf hwf
  have hcfg : t.cfg = s.cfg := ht ▸ rfl
  have hbuf : t.buf = bufAfterWrite s hs c cs p := ht ▸ rfl
  have hcount : storedCount t hs.toNat = c.toNat := storedCount_bufAfterWrite hb hp hroom hc hcfg hbuf
  have hread := exec_ovRead_of_room (s := t) (hs := hs) hcs (by rw [hcount, hcfg]; exact hsize)
    (by rw [hcount, hcfg, hbuf]; exact hroom)
  rwa [hcount, hcfg, hbuf, append_slices_bufAfterWrite hb hp hroom hlen, BitVec.ofNat_toNat, BitVec.setWidth_eq]
    at hread

/-- Settles O31: a record longer than BUF is stopped by one of the four checks, and where BUF holds the fixed part and
the size fits, by the last. -/
theorem malformedOverlay : Obligations.MalformedOverlay := by
  intro s hs cs hcs
  refine ⟨fun hroom => ?_, fun hcount hlen hsize => ?_⟩
  · rw [exec, execOvRead_eq, if_neg (Nat.ne_of_gt hcs), if_pos hroom]
    split_ifs
    · exact .inr rfl
    · exact .inl rfl
    · exact .inr rfl
    · exact .inl rfl
  · exact exec_ovRead_of_short hcs hsize (hlen ▸ fixed_part_le_recordSize _ _ _ _)
      (hlen ▸ recordSize_pred_lt _ _ hcount hcs)

/-- In a BUF of exactly its size a record leaves no byte of what was there. -/
theorem bufAfterWrite_of_exact {s : State} {hs c cs : Word} {p : Bytes} (hb : s.buf.wf = true) (hp : p.wf = true)
    (hexact : s.buf.len = recordSize s.cfg hs.toNat c.toNat cs.toNat) :
    bufAfterWrite s hs c cs p = ((p.slice 0 hs.toNat).append (encCount s.cfg c.toNat)).append
      (p.slice hs.toNat (c.toNat * cs.toNat)) := by
  have hheader := Memory.slice_wf hp 0 hs.toNat
  have hcount := encCount_wf s.cfg c.toNat
  have hchildren := Memory.slice_wf hp hs.toNat (c.toNat * cs.toNat)
  refine Memory.ext_get (bufAfterWrite_wf hb hp hexact.ge) (Memory.append_wf (Memory.append_wf hheader hcount)
    hchildren) (by simp [bufAfterWrite_len, hexact, recordSize]) fun k hk => ?_
  rw [bufAfterWrite_len, hexact] at hk
  rw [get_bufAfterWrite hb hp hexact.ge, if_pos hk, Memory.get_append (Memory.append_wf hheader hcount) hchildren,
    Memory.get_append hheader hcount, Memory.get_slice hp, Memory.get_slice hp, Memory.append_len, Memory.slice_len,
    encCount_len]
  rw [recordSize] at hk
  by_cases h1 : k < hs.toNat
  · rw [if_pos h1, if_pos (by omega), if_pos h1, if_pos h1, Nat.zero_add]
  by_cases h2 : k < hs.toNat + s.cfg.countBytes
  · rw [if_neg h1, if_pos h2, if_pos h2, if_neg h1]
  · rw [if_neg h1, if_neg h2, if_neg h2, if_pos (by omega)]
    congr 1
    omega

/-- Settles O33: OV.SIZE and OV.WRITE check one and the same size. -/
theorem sizingLaw : Obligations.SizingLaw := by
  intro s hs c cs r p hwf hp hcs hlen hc hanswer
  obtain ⟨hsize, hr⟩ := recordSize_of_exec_ovSize hanswer
  refine ⟨fun hL => ?_, fun hL => exec_ovWrite_of_short hcs hlen hc hsize (by omega)⟩
  have hexact := hL.trans hr
  rw [exec_ovWrite_of_room hcs hlen hc hsize hexact.ge, bufAfterWrite_of_exact (State.buf_wf hwf) hp hexact]

end Sys2Proof.Machine
end

section
/-! PROOFS. The response port and the block's outcomes: the bytes of a response (ResponsePacketBytes), which errors a
command can end with and what it leaves then (StatusTable, FailedCommandsLeaveNoTrace, RecoveryAfterError), one
response for each command and packet (EveryCommandAnswersOnce, StepRunsDecodedCommand, RunAnswersEveryPacket), and the
moves on which the block does nothing (HostMoves, BlockActsOnlyOnCommands). -/

namespace Sys2Proof.Machine

/-! ### The bytes of a response packet (30 R73, 60 R170) -/

theorem statusCode_lt (st : Status) : statusCode st < 256 := by
  cases st with
  | ok => decide
  | error e => cases e <;> decide

/-- Above its lowest byte the status register holds zeros. -/
theorem getD_statusBytes_of_pos (st : Status) {k : Nat} (hk : 1 ≤ k) (hk8 : k < 8) :
    (natToBytes 8 (statusCode st)).getD k 0 = 0 := by
  have hpow : 2 ^ (8 * 1) ≤ 2 ^ (8 * k) := Nat.pow_le_pow_right (by decide) (by omega)
  rw [getD_natToBytes 8 _ k hk8, Nat.div_eq_of_lt (lt_of_lt_of_le (statusCode_lt st) hpow)]
  rfl

/-- Byte `k` of a word in memory order is the word's bits from `8 * k` on. -/
theorem getD_wordBytes (v : Word) {k : Nat} (hk : k < 8) :
    (natToBytes 8 v.toNat).getD k 0 = v.extractLsb' (8 * k) 8 := by
  rw [getD_natToBytes 8 _ k hk, BitVec.extractLsb', Nat.shiftRight_eq_div_pow]

section ResponsePacket

variable {r : Response} (hp : r.payload.wf = true)
include hp

theorem responsePacket_wf : (responsePacket r).wf = true := Memory.append_wf (Memory.ofList_wf _) hp

/-- A response packet is R0, R1 and the payload, one behind the other. -/
theorem get_responsePacket (k : Nat) :
    (responsePacket r).get k =
      if k < 8 then (natToBytes 8 (statusCode r.status)).getD k 0
      else if k < 16 then (natToBytes 8 r.r1.toNat).getD (k - 8) 0
      else r.payload.get (k - 16) := by
  have hlen : (natToBytes 8 (statusCode r.status) ++ natToBytes 8 r.r1.toNat).length = 16 := by simp
  rw [responsePacket, Memory.get_append (Memory.ofList_wf _) hp, Memory.get_ofList, Memory.ofList_len, hlen]
  by_cases h8 : k < 8
  · rw [if_pos (by omega), if_pos h8, List.getD_append _ _ _ _ (by simpa using h8)]
  · rw [if_neg h8, List.getD_append_right _ _ _ _ (by simpa using h8), natToBytes_length]

theorem get_responsePacket_status {k : Nat} (hk : k < 8) :
    (responsePacket r).get k = (natToBytes 8 (statusCode r.status)).getD k 0 := by
  rw [get_responsePacket hp, if_pos hk]

theorem get_responsePacket_r1 {k : Nat} (hk : k < 8) :
    (responsePacket r).get (8 + k) = r.r1.extractLsb' (8 * k) 8 := by
  rw [get_responsePacket hp, if_neg (by omega), if_pos (by omega), Nat.add_sub_cancel_left, getD_wordBytes _ hk]

theorem get_responsePacket_payload (k : Nat) : (responsePacket r).get (16 + k) = r.payload.get k := by
  rw [get_responsePacket hp, if_neg (by omega), if_neg (by omega), Nat.add_sub_cancel_left]

end ResponsePacket

theorem responsePacket_len (r : Response) : (responsePacket r).len = 16 + r.payload.len := by
  simp [responsePacket]

/-- Settles O9: R0 is the status number and zeros, R1 and the payload stand behind it. -/
theorem responsePacketBytes : Obligations.ResponsePacketBytes := by
  refine ⟨⟨rfl, rfl, rfl, rfl, rfl, rfl⟩, fun r hp => ⟨responsePacket_wf hp, responsePacket_len r, ?_, ?_, ?_, ?_⟩⟩
  · exact get_responsePacket_status hp (by decide)
  · intro k hk hk8
    rw [get_responsePacket_status hp hk8, getD_statusBytes_of_pos _ hk hk8]
  · exact fun k hk => get_responsePacket_r1 hp hk
  · exact fun k _ => get_responsePacket_payload hp k

/-! ### A command fails, or ends with OK and memories of the same lengths (60 R176, R177) -/

/-- A command raises an error in the state it met, or it answers OK in that state with a WS and a BUF as long. -/
theorem exec_fails_or_answers (i : Instr) (s : State) :
    (∃ e, exec i s = .next (s.raise e)) ∨
    ∃ (ws : Words) (buf : Bytes) (r1 : Word) (p : Bytes),
      exec i s = .next (((s.setWs ws).setBuf buf).respond .ok r1 p) ∧ ws.len = s.ws.len ∧ buf.len = s.buf.len := by
  obtain ⟨e, hfail⟩ | ⟨ws, buf, r1, p, hok, hM, hL, -⟩ := exec_effect i s.cfg s.ws s.buf
  · exact .inl ⟨e, hfail _ _ _⟩
  · exact .inr ⟨ws, buf, r1, p, hok _ _ _, hM, hL⟩

/-- Settles O36: the state a failed command leaves is the one `raise` makes. -/
theorem failedCommandsLeaveNoTrace : Obligations.FailedCommandsLeaveNoTrace := by
  intro i s
  obtain ⟨e, h⟩ | ⟨ws, buf, r1, p, h, -, -⟩ := exec_fails_or_answers i s
  · exact ⟨_, _, h, rfl, fun _ => ⟨rfl, rfl, rfl⟩⟩
  · exact ⟨_, _, h, rfl, fun hne => absurd rfl hne⟩

/-- A command whose newest response is an error has raised that error and done nothing else. -/
theorem eq_raise_of_lastStatus {i : Instr} {s t : State} {e : CmdError} (h : exec i s = .next t)
    (hlast : t.lastStatus = some (.error e)) : t = s.raise e := by
  obtain ⟨e', hfail⟩ | ⟨ws, buf, r1, p, hok, -, -⟩ := exec_fails_or_answers i s
  · obtain rfl : s.raise e' = t := Host.Outcome.next.inj (hfail.symm.trans h)
    obtain rfl : e' = e := Status.error.inj (Option.some.inj ((lastStatus_of_fail rfl).symm.trans hlast))
    rfl
  · obtain rfl := Host.Outcome.next.inj (hok.symm.trans h)
    cases (State.lastStatus_respond _ _ _ _).symm.trans hlast

/-- Settles O39: the failed command has left the parameters and the memories as they were, and the next command
depends on nothing else. -/
theorem recoveryAfterError : Obligations.RecoveryAfterError := by
  intro i j s t e h hlast
  obtain rfl := eq_raise_of_lastStatus h hlast
  obtain ⟨ws, buf, r, hexec, -, -⟩ := exec_answer_of_memories j s.cfg s.ws s.buf
  exact ⟨State.raise_responses s e, ws, buf, r, hexec s rfl rfl rfl, hexec (s.raise e) rfl rfl rfl⟩

/-! ### Which errors each command can end with (60 R183) -/

/-- The result is not a failure, or it is one with an error that `P` allows. -/
def FailsOnlyWith (P : CmdError → Prop) (s : State) (x : Result) : Prop := ∀ e, x = .next (s.raise e) → P e

section FailsOnlyWith

variable {P : CmdError → Prop} {s : State}

theorem failsOnlyWith_fail {e : CmdError} (he : P e) : FailsOnlyWith P s (fail s e) := by
  intro e' h
  obtain rfl := fail_eq_raise_iff.1 h
  exact he

theorem failsOnlyWith_finishWith {t : State} (ht : t.responses = s.responses) (r1 : Word) (p : Bytes) :
    FailsOnlyWith P s (finishWith t r1 p) := fun e h => absurd h (finishWith_ne_raise ht r1 p e)

theorem failsOnlyWith_finish {t : State} (ht : t.responses = s.responses) (r1 : Word) :
    FailsOnlyWith P s (finish t r1) := failsOnlyWith_finishWith ht r1 Memory.empty

/-- A check that fails adds its own error to those of what comes after it. -/
theorem failsOnlyWith_check {c : Prop} [Decidable c] {e : CmdError} {x : Result} (he : c → P e)
    (hx : FailsOnlyWith P s x) : FailsOnlyWith P s (if c then fail s e else x) := by
  split
  · next hc => exact failsOnlyWith_fail (he hc)
  · exact hx

end FailsOnlyWith

/-- The rows of 60 R183: the errors possible for a command of this opcode under these parameters. -/
def errorPossible (op : Opcode) (cfg : Config) : CmdError → Prop
  | .indexOutOfRange => op = .bfGet ∨ op = .bfSet
  | .valueOutOfRange => op = .bfSet ∨ (op = .ovWrite ∧ cfg.countBytes < 8)
  | .bufferTooShort => op = .ovWrite ∨ op = .ovRead
  | .sizeOverflow => op = .ovSize ∨ op = .ovWrite ∨ op = .ovRead
  | .illegalCommand => True

theorem execBfGet_failsOnlyWith (b : BitVec 7) (n : BitVec 32) (index : Word) (s : State) :
    FailsOnlyWith (errorPossible .bfGet s.cfg) s (execBfGet b n index s) := by
  obtain ⟨-, h⟩ | ⟨-, -, h⟩ | ⟨-, -, h⟩ := execBfGet_cases b n index s <;> rw [h]
  · exact failsOnlyWith_fail trivial
  · exact failsOnlyWith_fail (.inl rfl)
  · exact failsOnlyWith_finish rfl _

theorem execBfSet_failsOnlyWith (b : BitVec 7) (n : BitVec 32) (index value : Word) (s : State) :
    FailsOnlyWith (errorPossible .bfSet s.cfg) s (execBfSet b n index value s) := by
  obtain ⟨-, h⟩ | ⟨-, -, h⟩ | ⟨-, -, -, h⟩ | ⟨-, -, -, h⟩ := execBfSet_cases b n index value s <;> rw [h]
  · exact failsOnlyWith_fail trivial
  · exact failsOnlyWith_fail (.inr rfl)
  · exact failsOnlyWith_fail (.inl rfl)
  · exact failsOnlyWith_finish (State.setWs_responses s _) _

theorem execOvSize_failsOnlyWith (hs c cs : Word) (s : State) :
    FailsOnlyWith (errorPossible .ovSize s.cfg) s (execOvSize hs c cs s) := by
  rw [execOvSize_eq]
  exact failsOnlyWith_check (fun _ => .inl rfl) (failsOnlyWith_finish rfl _)

/-- A 64-bit count can only be too large for a field of fewer than eight bytes. -/
theorem countBytes_lt_of_large_count {cfg : Config} {c : Word} (h : 2 ^ (8 * cfg.countBytes) ≤ c.toNat) :
    cfg.countBytes < 8 := by
  have hpow : 2 ^ (8 * cfg.countBytes) < 2 ^ 64 := lt_of_le_of_lt h c.isLt
  have hbits : 8 * cfg.countBytes < 64 := (Nat.pow_lt_pow_iff_right (by decide)).1 hpow
  omega

theorem execOvWrite_failsOnlyWith (hs c cs : Word) (p : Bytes) (s : State) :
    FailsOnlyWith (errorPossible .ovWrite s.cfg) s (execOvWrite hs c cs p s) := by
  rw [execOvWrite_eq]
  refine failsOnlyWith_check (fun _ => trivial) ?_
  refine failsOnlyWith_check (fun hc => .inr ⟨rfl, countBytes_lt_of_large_count hc⟩) ?_
  refine failsOnlyWith_check (fun _ => .inr (.inl rfl)) ?_
  exact failsOnlyWith_check (fun _ => .inl rfl) (failsOnlyWith_finish (State.setBuf_responses s _) _)

theorem execOvRead_failsOnlyWith (hs cs : Word) (s : State) :
    FailsOnlyWith (errorPossible .ovRead s.cfg) s (execOvRead hs cs s) := by
  rw [execOvRead_eq]
  refine failsOnlyWith_check (fun _ => trivial) ?_
  refine failsOnlyWith_check (fun _ => .inr (.inr rfl)) ?_
  refine failsOnlyWith_check (fun _ => .inr rfl) ?_
  refine failsOnlyWith_check (fun _ => .inr (.inr rfl)) ?_
  exact failsOnlyWith_check (fun _ => .inr rfl) (failsOnlyWith_finishWith rfl _ _)

/-- A command ends only with the errors of its row; the TS commands have no error of their own (42 R129). -/
theorem exec_failsOnlyWith (i : Instr) (s : State) : FailsOnlyWith (errorPossible i.opcode s.cfg) s (exec i s) := by
  cases i with
  | bfGet b n index => exact execBfGet_failsOnlyWith b n index s
  | bfSet b n index value => exact execBfSet_failsOnlyWith b n index value s
  | tsCompose low high => exact failsOnlyWith_finish rfl _
  | tsDecompose ts => exact failsOnlyWith_finish rfl _
  | tsGet variant low high => cases variant <;> exact failsOnlyWith_finish rfl _
  | tsSet variant low high ts => cases variant <;> exact failsOnlyWith_finish rfl _
  | ovSize hs c cs => exact execOvSize_failsOnlyWith hs c cs s
  | ovWrite hs c cs p => exact execOvWrite_failsOnlyWith hs c cs p s
  | ovRead hs cs => exact execOvRead_failsOnlyWith hs cs s

/-- Settles O37: a failed command's error is one its row allows, and OK is none of the four statuses. -/
theorem statusTable : Obligations.StatusTable := by
  intro i s
  obtain ⟨e, h⟩ | ⟨ws, buf, r1, p, h, -, -⟩ := exec_fails_or_answers i s
  · have hrow : ∀ e', Status.error e = .error e' → errorPossible i.opcode s.cfg e' := by
      rintro _ ⟨rfl⟩
      exact exec_failsOnlyWith i s e h
    exact ⟨_, _, h, rfl, hrow _, hrow _, hrow _, hrow _⟩
  · exact ⟨_, _, h, rfl, nofun, nofun, nofun, nofun⟩

/-! ### One response for each command and each packet (60 R186) -/

/-- From `s` to `t` the block has answered once, and beside the response only the contents of WS and BUF can differ. -/
structure AnsweredOnce (s t : State) : Prop where
  responses : ∃ r, t.responses = s.responses ++ [r]
  cfg : t.cfg = s.cfg
  ws_len : t.ws.len = s.ws.len
  buf_len : t.buf.len = s.buf.len
  inbox : t.inbox = s.inbox
  observed : t.observed = s.observed

theorem answeredOnce_raise (s : State) (e : CmdError) : AnsweredOnce s (s.raise e) :=
  ⟨⟨_, rfl⟩, rfl, rfl, rfl, rfl, rfl⟩

theorem exec_answeredOnce (i : Instr) (s : State) : ∃ t, exec i s = .next t ∧ AnsweredOnce s t := by
  obtain ⟨e, h⟩ | ⟨ws, buf, r1, p, h, hM, hL⟩ := exec_fails_or_answers i s
  · exact ⟨_, h, answeredOnce_raise s e⟩
  · exact ⟨_, h, ⟨_, rfl⟩, rfl, hM, hL, rfl, rfl⟩

/-- Settles O34: a command that fails and one that ends with OK both answer once. -/
theorem everyCommandAnswersOnce : Obligations.EveryCommandAnswersOnce := by
  intro i s
  obtain ⟨t, h, ⟨r, hr⟩, hcfg, hM, hL, hinbox, hobs⟩ := exec_answeredOnce i s
  exact ⟨t, r, h, hr, hcfg, hM, hL, hinbox, hobs⟩

/-- Settles O5: the packet is a packet, so the move runs it, and it decodes to the command. -/
theorem stepRunsDecodedCommand : Obligations.StepRunsDecodedCommand := by
  intro s pkt rest i hinbox hw hl hdec
  exact (step_issue hinbox hw hl).trans (runPacket_of_ok hdec _)

/-- A packet is answered once, whether or not it decodes (30 R80). -/
theorem runPacket_answeredOnce (pkt : Bytes) (s : State) : ∃ t, runPacket pkt s = .next t ∧ AnsweredOnce s t := by
  cases hdec : decode pkt with
  | error e => exact ⟨_, runPacket_of_error hdec s, answeredOnce_raise s _⟩
  | ok i =>
    rw [runPacket_of_ok hdec]
    exact exec_answeredOnce i s

/-- Settles O48, by induction on the packets: the first step answers the first packet and leaves the moves that issue
the others. -/
theorem runAnswersEveryPacket : Obligations.RunAnswersEveryPacket := by
  intro pkts
  induction pkts with
  | nil =>
    intro s _ hinbox
    exact ⟨s, [], rfl, (List.append_nil _).symm, rfl, hinbox, rfl, rfl, rfl⟩
  | cons pkt pkts ih =>
    intro s hpkts hinbox
    obtain ⟨⟨hw, hl⟩, hrest⟩ := List.forall_mem_cons.1 hpkts
    obtain ⟨s', hrun, ⟨r, hr⟩, hcfg, hM, hL, hmoves, -⟩ := runPacket_answeredOnce pkt (s.setInbox (pkts.map .issue))
    obtain ⟨t, rs, hruns, hrs, hlen, hempty, hcfg', hM', hL'⟩ := ih s' hrest hmoves
    refine ⟨t, r :: rs, (run_succ _ ((step_issue hinbox hw hl).trans hrun)).trans hruns, ?_,
      congrArg (· + 1) hlen, hempty, hcfg'.trans hcfg, hM'.trans hM, hL'.trans hL⟩
    rw [hrs, hr, State.setInbox_responses, List.append_assoc, List.singleton_append]

/-! ### The host's moves on responses and memories (60 R186, R192; 20 R50) -/

theorem readWs_fault {s : State} {k : Nat} (h : s.ws.len ≤ k) (f : Word → Result) :
    readWs s k f = .fault (.wsAddress k) := if_neg (Nat.not_lt.2 h)

theorem writeWs_fault {s : State} {k : Nat} (h : s.ws.len ≤ k) (v : Word) (f : State → Result) :
    writeWs s k v f = .fault (.wsAddress k) := if_neg (Nat.not_lt.2 h)

/-- A read of one byte at or above L faults at that byte. -/
theorem memRead_byte_fault {s : State} {a : Nat} (h : s.buf.len ≤ a) (f : Bytes → Result) :
    memRead s a 1 f = .fault (.bufAddress a) := if_neg (Nat.not_lt.2 h)

/-- A write of one byte at or above L faults at that byte. -/
theorem memWrite_byte_fault {s : State} {a : Nat} (h : s.buf.len ≤ a) (v : Byte) (f : State → Result) :
    memWrite s a (Memory.ofList [v]) f = .fault (.bufAddress a) := if_neg (Nat.not_lt.2 h)

theorem takeResponse_cons {s : State} {r : Response} {rs : List Response} (h : s.responses = r :: rs) :
    takeResponse s = .next ((s.setResponses rs).observe (.response r)) := by
  rw [takeResponse, h]

/-- Settles O45: each clause is one move, whose check the clause's premise decides. -/
theorem hostMoves : Obligations.HostMoves := by
  intro s rest
  refine ⟨fun r rs hinbox hr => ?_, fun ws hinbox hws => ?_, fun buf hinbox hbuf => ?_, fun hinbox => ?_,
    fun hinbox => ?_, fun k hinbox hk => ?_, fun k v hinbox hv hk => ?_, fun a hinbox ha => ?_,
    fun a v hinbox ha => ?_⟩ <;> rw [step_cons hinbox]
  · exact takeResponse_cons hr
  · exact if_pos hws
  · exact if_pos hbuf
  · rfl
  · rfl
  · rw [perform, readWs_fault (s := s.setInbox rest) hk]
  · exact (if_pos hv).trans (writeWs_fault (s := s.setInbox rest) hk v _)
  · rw [perform, memRead_byte_fault (s := s.setInbox rest) ha]
  · exact memWrite_byte_fault (s := s.setInbox rest) ha v _

/-! ### The block acts on commands only (60 R184) -/

/-- The move is one of the three with which the host itself changes WS. -/
def HostAction.changesWs (a : HostAction) : Prop :=
  a = .detachWs ∨ (∃ ws, a = .attachWs ws) ∨ ∃ k v, a = .writeWord k v

/-- The move is one of the three with which the host itself changes BUF. -/
def HostAction.changesBuf (a : HostAction) : Prop :=
  a = .detachBuf ∨ (∃ buf, a = .attachBuf buf) ∨ ∃ b v, a = .writeByte b v

/-- All that a move which issues no command can make of a state: nothing, something given to the host, the oldest
response taken, or another content of the one memory the move is for. -/
inductive HostEffect (a : HostAction) (s : State) : State → Prop where
  | nothing : HostEffect a s s
  | given (o : Observation) : HostEffect a s (s.observe o)
  | taken {r : Response} {rs : List Response} (hr : s.responses = r :: rs) :
      HostEffect a s ((s.setResponses rs).observe (.response r))
  | changedWs (ha : a.changesWs) (m : Words) : HostEffect a s (s.setWs m)
  | changedBuf (ha : a.changesBuf) (m : Bytes) : HostEffect a s (s.setBuf m)

theorem takeResponse_hostEffect {a : HostAction} {s t : State} (h : takeResponse s = .next t) : HostEffect a s t := by
  unfold takeResponse at h
  split at h
  · cases h
  · next r rs hr =>
    obtain rfl := Host.Outcome.next.inj h
    exact .taken hr

theorem perform_hostEffect {a : HostAction} {s t : State} (ha : a.isCommand = false) (h : perform a s = .next t) :
    HostEffect a s t := by
  cases a with
  | issue pkt => cases ha
  | takeResponse => exact takeResponse_hostEffect h
  | attachWs ws =>
    obtain ⟨-, h⟩ := next_of_ite h nofun
    obtain rfl := Host.Outcome.next.inj h
    exact .changedWs (.inr (.inl ⟨ws, rfl⟩)) _
  | detachWs =>
    obtain rfl := Host.Outcome.next.inj h
    exact .changedWs (.inl rfl) _
  | readWord k =>
    rw [perform] at h
    obtain ⟨-, h⟩ := readWs_next h
    obtain rfl := Host.Outcome.next.inj h
    exact .given _
  | writeWord k v =>
    obtain ⟨-, h⟩ := next_of_ite h nofun
    obtain ⟨-, h⟩ := writeWs_next h
    obtain rfl := Host.Outcome.next.inj h
    exact .changedWs (.inr (.inr ⟨k, v, rfl⟩)) _
  | attachBuf buf =>
    obtain ⟨-, h⟩ := next_of_ite h nofun
    obtain rfl := Host.Outcome.next.inj h
    exact .changedBuf (.inr (.inl ⟨buf, rfl⟩)) _
  | detachBuf =>
    obtain rfl := Host.Outcome.next.inj h
    exact .changedBuf (.inl rfl) _
  | readByte b =>
    rw [perform] at h
    obtain ⟨-, h⟩ := memRead_next h
    obtain rfl := Host.Outcome.next.inj h
    exact .given _
  | writeByte b v =>
    obtain ⟨-, h⟩ := memWrite_next h
    obtain rfl := Host.Outcome.next.inj h
    exact .changedBuf (.inr (.inr ⟨b, v, rfl⟩)) _
  | reset =>
    obtain rfl := Host.Outcome.next.inj h
    exact .nothing

/-- What a move that issues no command leaves as it was. -/
structure HostMoveFrame (a : HostAction) (s t : State) : Prop where
  cfg : t.cfg = s.cfg
  inbox : t.inbox = s.inbox
  responses : ∃ taken, s.responses = taken ++ t.responses ∧ taken.length ≤ 1
  ws : t.ws = s.ws ∨ a.changesWs
  buf : t.buf = s.buf ∨ a.changesBuf

theorem HostEffect.frame {a : HostAction} {s t : State} (h : HostEffect a s t) : HostMoveFrame a s t := by
  cases h with
  | nothing => exact ⟨rfl, rfl, ⟨[], rfl, Nat.zero_le 1⟩, .inl rfl, .inl rfl⟩
  | given o => exact ⟨rfl, rfl, ⟨[], rfl, Nat.zero_le 1⟩, .inl rfl, .inl rfl⟩
  | taken hr => exact ⟨rfl, rfl, ⟨[_], hr, le_rfl⟩, .inl rfl, .inl rfl⟩
  | changedWs ha m => exact ⟨rfl, rfl, ⟨[], rfl, Nat.zero_le 1⟩, .inr ha, .inl rfl⟩
  | changedBuf ha m => exact ⟨rfl, rfl, ⟨[], rfl, Nat.zero_le 1⟩, .inl rfl, .inr ha⟩

/-- Settles O44: with no move to come nothing happens, and a move that issues no command is the host's own. -/
theorem blockActsOnlyOnCommands : Obligations.BlockActsOnlyOnCommands := by
  intro s t hhead h
  cases hinbox : s.inbox with
  | nil =>
    rw [step, hinbox] at h
    obtain rfl := Host.Outcome.next.inj h
    exact ⟨rfl, hinbox, fun _ => rfl, ⟨[], rfl, Nat.zero_le 1⟩, .inl rfl, .inl rfl⟩
  | cons a rest =>
    have ha : a.isCommand = false := by simpa [hinbox] using hhead
    obtain ⟨hcfg, hrest, htaken, hws, hbuf⟩ := (perform_hostEffect ha ((step_cons hinbox).symm.trans h)).frame
    refine ⟨hcfg, hrest, nofun, htaken, ?_, ?_⟩
    · simpa [HostAction.changesWs] using hws
    · simpa [HostAction.changesBuf] using hbuf

end Sys2Proof.Machine
end

section
/-! PROOFS. Reset of the idle block (70 R200): `ResetChangesNothing`. A reset move makes nothing of the state it finds,
so a step with reset as its move is the step's own use of the inbox and no more. -/

namespace Sys2Proof.Machine

theorem perform_reset (s : State) : perform .reset s = .next s := rfl

/-- Settles O43: the step takes the move off the inbox, and reset keeps the state that leaves. -/
theorem resetChangesNothing : Obligations.ResetChangesNothing := by
  intro s rest hinbox
  calc step s
      _ = perform .reset (s.setInbox rest) := step_cons hinbox
      _ = .next (s.setInbox rest) := perform_reset _

end Sys2Proof.Machine
end
